-- ==== Sys2Proof/Word.lean ====
section
/-! DEFINITION. The word types of the machine (00_scope.md R2, R8, R9): every value is unsigned. -/

namespace Sys2Proof

/-- 8 bits: general registers, timers, memory cells (R2). -/
abbrev Byte := BitVec 8

/-- 16 bits: opcodes, I, PC, call-stack entries (R2, R5, D33). -/
abbrev Word := BitVec 16

/-- The index of a general register, 0 to 15 (R20). -/
abbrev Reg := Fin 16

/-- The address field NNN of an instruction, 12 bits (R72). -/
abbrev Addr := BitVec 12

/-- `v mod 256` (R9). -/
def trunc8 (n : Nat) : Byte := BitVec.ofNat 8 n

/-- `v mod 65536` (R9). -/
def trunc16 (n : Nat) : Word := BitVec.ofNat 16 n

@[simp] theorem trunc8_toNat (n : Nat) : (trunc8 n).toNat = n % 256 := BitVec.toNat_ofNat n 8

@[simp] theorem trunc16_toNat (n : Nat) : (trunc16 n).toNat = n % 65536 := BitVec.toNat_ofNat n 16

end Sys2Proof
end

