-- ==== Sys2Proof/Config.lean ====
section
/-! DEFINITION. What an implementation fixes (00_scope.md R5, R6) and the free values. The sizes of R5 are
the source's; the three opaque constants are the points the spec leaves open, and no proof can see their value. -/

namespace Sys2Proof.Config

/-- `MEM_SIZE`, 4096 bytes (R5). -/
@[simp, reducible] def memSize : Nat := 4096

/-- `PROG_ORIGIN`: reserved boundary, program origin and reset PC (R5). -/
@[simp, reducible] def progOrigin : Nat := 0x200

/-- `STACK_DEPTH`, 16 entries (R5). -/
@[simp, reducible] def stackDepth : Nat := 16

/-- `DISP_W`, 64 columns (R5). -/
@[simp, reducible] def dispW : Nat := 64

/-- `DISP_H`, 32 rows (R5). -/
@[simp, reducible] def dispH : Nat := 32

/-- `SPRITE_W`, 8 pixels (R5). -/
@[simp, reducible] def spriteW : Nat := 8

/-- `FONT_BASE`, the address of the first font byte: OPEN in the spec (R6, R164, D14, U5), so opaque here.
Its type holds the spec's one constraint, `FONT_BASE + 80 <= 0x200`. Log 2; safe. -/
opaque fontBase : Fin 433

/-- `draw8()`: the n-th free 8-bit draw of CXNN, under no law (R112, D23, U2). DESIGN CHOICE of form: an opaque
function of the counter `State.draws`. Log 4; safe. -/
opaque draw8 : Nat → Byte

/-- `DIRTY_ALWAYS_ON_DRAW`: whether a draw that flips no pixel sets `dirty` too; the source permits both
(R175, D18, U1), so opaque here. Log 5; safe. -/
opaque dirtyAlwaysOnDraw : Bool

/-- The constraint of R6 and R164: the font lies wholly below 0x200. -/
theorem fontBase_bound : fontBase.val + 80 ≤ progOrigin := by
  have h := fontBase.isLt
  simp only [progOrigin]
  omega

end Sys2Proof.Config
end

