-- ==== Sys2Proof/Machine/State.lean ====
section
/-! DEFINITION. The machine's state as plain data, the reasons a step can stop, and the state after reset
(10_state.md R20 to R40). Field names are the spec's. -/

namespace Sys2Proof.Machine

/-- The four fatal errors with the information R210 records. A step that raises one answers a NEXT state in which
`State.fault` holds it and everything else is as before (R98, R211), so no step ends in `Outcome.fault`; what
`step()` returns to its caller is `Machine.raisedBy` (Session.lean). Log 1. -/
inductive Fault where
  /-- Raised by the decode of any step on an illegal word (R93, R212): the opcode and the address it came from.
  Safe: the machine reports it as the spec does. -/
  | decodeError (op pc : Word)
  /-- Raised by fetch, DXYN, FX33, FX55 and FX65 on an address of 4096 or more (R52, R213): the lowest
  out-of-range address. Safe: the machine reports it as the spec does. -/
  | memoryBoundsError (addr : Nat)
  /-- Raised by 2NNN when the stack holds 16 entries (R141, R215): the address of the CALL. Safe. -/
  | stackOverflowError (pc : Word)
  /-- Raised by 00EE when the stack is empty (R142, R215): the address of the RET. Safe. -/
  | stackUnderflowError (pc : Word)
  deriving DecidableEq, Repr

/-- The cases the spec declines to define (R96, R230); a refusal gives no value and records no error. -/
inductive Refusal where
  /-- An arm of `exec` without a meaning; none is left. Safe. -/
  | notModelled (mnemonic : String)
  /-- Raised by EX9E and EXA1 when Vx is above 15 (R185, U3). Safe: no value is invented. -/
  | keyIndexOutOfRange (k : Byte)
  /-- Raised by FX29 when Vx is above 15 (R163, U4). Safe: no value is invented. -/
  | fontDigitOutOfRange (d : Byte)
  /-- Raised by `init` when the ROM image is longer than 3584 bytes (R242, D25). Safe. -/
  | romTooLong (len : Nat)
  /-- Raised by `set_key_status` and `consume_dirty` after a fatal error, to which the spec gives no meaning
  (R214; log 8). Safe. -/
  | deadSession
  deriving DecidableEq, Repr

/-- Memory: the cells that differ from their reset contents, addresses strictly rising (`Memory.wf`, Ops.lean). -/
abbrev Memory := List Host.Cell

/-- The display buffer: 32 rows of 64 one-bit pixels; column x of row y is bit x of the y-th row (R31; log 12). -/
abbrev Display := Vector (BitVec 64) 32

/-- The 16 key slots, true = pressed (R33). -/
abbrev Keys := Vector Bool 16

/-- The architectural state (R40), and `draws`, the model's own counter of free draws. -/
structure State where
  /-- V0 to VF (R20); VF doubles as the flag (R21). -/
  V : Vector Byte 16
  /-- The index register (R22). -/
  I : Word
  /-- The program counter (R23). -/
  pc : Word
  /-- The delay timer (R26). -/
  DT : Byte
  /-- The sound timer (R27). -/
  ST : Byte
  /-- The call stack, last pushed at the end (R28). -/
  stack : List Word
  /-- Memory (R30). -/
  mem : Memory
  /-- The display buffer (R31). -/
  fb : Display
  /-- The "changed since last read" flag of the display buffer (R32). -/
  dirty : Bool
  /-- The key state (R33). -/
  key : Keys
  /-- The key-wait mode: the register that will receive the key (R34). -/
  wait : Option Reg
  /-- The fault status (R35). -/
  fault : Option Fault
  /-- How many free draws CXNN has taken: the model's own field, not the spec's (R112; log 4). -/
  draws : Nat
  deriving DecidableEq, Repr

/-- The three outcomes of a step (R96). -/
abbrev Result := Host.Outcome State Fault Refusal

/-- The machine right after `init` of an empty ROM (R37, R240): no memory cell differs from its reset contents.
The values R37 marks "decided" are the spec's decision D19 (log 6); `draws` is DESIGN CHOICE 0 (log 4). -/
def State.reset : State where
  V := Vector.replicate 16 0#8
  I := 0#16
  pc := 0x200#16
  DT := 0#8
  ST := 0#8
  stack := []
  mem := []
  fb := Vector.replicate 32 0#64
  dirty := false
  key := Vector.replicate 16 false
  wait := none
  fault := none
  draws := 0

end Sys2Proof.Machine
end

