-- ==== Sys2Proof/Machine/Ops.lean ====
section
/-! DEFINITION. The named operations over memory, registers, program counter and call stack, taking a fatal
error, and the two timers' and keys' primitive operations (00_scope.md R10, 10_state.md, 20_memory.md,
60_exceptions.md R211). -/

namespace Sys2Proof.Machine

/-! Memory -/

/-- `MEM_FILL`: a byte covered neither by the font nor by the ROM (20_memory.md R57, D19; log 6). -/
def memFill : Byte := 0x00#8

/-- `FONT_DATA`: 16 glyphs of 5 bytes (44_memory_index.md R164, D15; log 16). -/
def fontData : List Byte :=
  [0xF0#8, 0x90#8, 0x90#8, 0x90#8, 0xF0#8, 0x20#8, 0x60#8, 0x20#8, 0x20#8, 0x70#8,
   0xF0#8, 0x10#8, 0xF0#8, 0x80#8, 0xF0#8, 0xF0#8, 0x10#8, 0xF0#8, 0x10#8, 0xF0#8] ++
  [0x90#8, 0x90#8, 0xF0#8, 0x10#8, 0x10#8, 0xF0#8, 0x80#8, 0xF0#8, 0x10#8, 0xF0#8,
   0xF0#8, 0x80#8, 0xF0#8, 0x90#8, 0xF0#8, 0xF0#8, 0x10#8, 0x20#8, 0x40#8, 0x40#8] ++
  [0xF0#8, 0x90#8, 0xF0#8, 0x90#8, 0xF0#8, 0xF0#8, 0x90#8, 0xF0#8, 0x10#8, 0xF0#8,
   0xF0#8, 0x90#8, 0xF0#8, 0x90#8, 0x90#8, 0xE0#8, 0x90#8, 0xE0#8, 0x90#8, 0xE0#8] ++
  [0xF0#8, 0x80#8, 0x80#8, 0x80#8, 0xF0#8, 0xE0#8, 0x90#8, 0x90#8, 0x90#8, 0xE0#8,
   0xF0#8, 0x80#8, 0xF0#8, 0x80#8, 0xF0#8, 0xF0#8, 0x80#8, 0xF0#8, 0x80#8, 0x80#8]

/-- The reset contents of the area below 0x200: the font at `FONT_BASE`, else the fill (R56, R57). -/
def lowAreaByte (a : Nat) : Byte :=
  if Config.fontBase.val ≤ a then fontData.getD (a - Config.fontBase.val) memFill else memFill

/-- What an unlisted address reads as: its reset contents with no ROM loaded (R57). -/
def resetByte (a : Nat) : Byte := if a < Config.progOrigin then lowAreaByte a else memFill

/-- The byte at an address of a memory (R55). -/
def Memory.read : Memory → Nat → Byte
  | [], a => resetByte a
  | (b, w) :: m, a => if a = b then w else Memory.read m a

/-- Put cell `(a, v)` before `m`, unless `v` is what the unlisted address reads as. -/
def Memory.consCell (a : Nat) (v : Byte) (m : Memory) : Memory := if v = resetByte a then m else (a, v) :: m

/-- Store a byte, keeping the canonical form. -/
def Memory.write : Memory → Nat → Byte → Memory
  | [], a, v => Memory.consCell a v []
  | (b, w) :: m, a, v =>
    if a < b then Memory.consCell a v ((b, w) :: m)
    else if a = b then Memory.consCell a v m
    else (b, w) :: Memory.write m a v

/-- The canonical form from address `lo` on: strictly rising addresses inside the address space, and no cell
equal to what its address reads as unlisted. -/
def Memory.wfFrom : Nat → Memory → Bool
  | _, [] => true
  | lo, (a, v) :: m =>
    decide (lo ≤ a) && decide (a < Config.memSize) && decide (v ≠ resetByte a) && Memory.wfFrom (a + 1) m

/-- The canonical form of a memory. -/
def Memory.wf (m : Memory) : Bool := Memory.wfFrom 0 m

/-- `MemRead(a, 1)` (R10, R52): bounds-checked, the address never wrapped. -/
def memRead (m : Memory) (a : Nat) : Except Fault Byte :=
  if a < Config.memSize then .ok (Memory.read m a) else .error (.memoryBoundsError a)

/-- `MemWrite(a, 1, v)` (R10, R52). -/
def memWrite (m : Memory) (a : Nat) (v : Byte) : Except Fault Memory :=
  if a < Config.memSize then .ok (Memory.write m a v) else .error (.memoryBoundsError a)

/-- `n` reads at ascending addresses from `base` (R54); the first out-of-range address raises (R64). -/
def readRange (m : Memory) (base : Nat) : Nat → Except Fault (List Byte)
  | 0 => .ok []
  | n + 1 =>
    match memRead m base with
    | .error e => .error e
    | .ok b =>
      match readRange m (base + 1) n with
      | .error e => .error e
      | .ok bs => .ok (b :: bs)

/-- Writes of the bytes at ascending addresses from `base` (R54); the first out-of-range address raises and no
memory results, so none of the bytes is written (R64). -/
def writeRange (m : Memory) (base : Nat) : List Byte → Except Fault Memory
  | [] => .ok m
  | b :: bs =>
    match memWrite m base b with
    | .error e => .error e
    | .ok m' => writeRange m' (base + 1) bs

/-! Registers. One update function per field. -/

/-- `V[r]` (R10). -/
def State.reg (s : State) (r : Reg) : Byte := s.V.get r

/-- `V0`, the offset register of `JP V0, NNN` (R20). -/
def V0 : Reg := 0

/-- `VF = V[15]`, the flag (R10, R21). -/
def VF : Reg := 15

/-- `V[r] <- b` (R10). -/
def State.setReg (s : State) (r : Reg) (b : Byte) : State := { s with V := s.V.set r.val b r.isLt }

/-- Replace the register file. -/
def State.setV (s : State) (v : Vector Byte 16) : State := { s with V := v }

/-- `I <- w`. -/
def State.setI (s : State) (w : Word) : State := { s with I := w }

/-- `pc <- target`. -/
def State.setPc (s : State) (w : Word) : State := { s with pc := w }

/-- `DT <- b`. -/
def State.setDT (s : State) (b : Byte) : State := { s with DT := b }

/-- `ST <- b`. -/
def State.setST (s : State) (b : Byte) : State := { s with ST := b }

/-- Replace the call stack. -/
def State.setStack (s : State) (st : List Word) : State := { s with stack := st }

/-- Replace Memory. -/
def State.setMem (s : State) (m : Memory) : State := { s with mem := m }

/-- Replace the display buffer. -/
def State.setFb (s : State) (fb : Display) : State := { s with fb := fb }

/-- `dirty <- b`. -/
def State.setDirty (s : State) (b : Bool) : State := { s with dirty := b }

/-- Replace the key state. -/
def State.setKeys (s : State) (k : Keys) : State := { s with key := k }

/-- `wait <- w`. -/
def State.setWait (s : State) (w : Option Reg) : State := { s with wait := w }

/-- `fault <- f`. -/
def State.setFault (s : State) (f : Option Fault) : State := { s with fault := f }

/-- Count the draws taken. -/
def State.setDraws (s : State) (n : Nat) : State := { s with draws := n }

/-- `pc <- pc + 2`, in 16 bits: the advance of every fetched instruction (40_step_cycle.md R92), and the second
advance of a skip (R148). -/
def State.advance (s : State) : State := s.setPc (s.pc + 2#16)

/-! Taking a fatal error -/

/-- TAKING AN EXCEPTION (60_exceptions.md R211, 40_step_cycle.md R98). `s` is the state before the step, so that
every write of the step is discarded: the fault status records the error and nothing else changes: no saved
register, no mode, no vector, the pc stays where it is. The answer is the next state, a dead session (R214; log 1).
There is no return from an exception: no instruction, no handler, no nesting (R216); only `init` clears the fault
status (R35). -/
def takeFault (e : Fault) (s : State) : Result := .next (s.setFault (some e))

/-! Call stack -/

/-- `push(v)`: append, or none when 16 entries are held (10_state.md R28). -/
def pushStack (st : List Word) (v : Word) : Option (List Word) :=
  if st.length < Config.stackDepth then some (st ++ [v]) else none

/-- `pop()`: the last element and the stack without it, or none when it is empty (R28). -/
def popStack (st : List Word) : Option (Word × List Word) :=
  match st.getLast? with
  | some v => some (v, st.dropLast)
  | none => none

/-! Controller queries (46_input.md R186) -/

/-- `is_key_pressed(k)`. -/
def isKeyPressed (ks : Keys) (k : Fin 16) : Bool := ks.get k

/-- `is_key_not_pressed(k)`. -/
def isKeyNotPressed (ks : Keys) (k : Fin 16) : Bool := !(ks.get k)

/-- `first_pressed_key()`: the lowest pressed index, if any (R187, D12). -/
def firstPressedKey (ks : Keys) : Option (Fin 16) := (List.finRange 16).find? (fun k => isKeyPressed ks k)

/-! Timers -/

/-- One tick of one timer: down by one unless zero (60_exceptions.md R222). -/
def tickTimer (t : Byte) : Byte := if 0 < t.toNat then trunc8 (t.toNat - 1) else t

end Sys2Proof.Machine
end

