-- ==== Sys2Proof/Machine/Flags.lean ====
section
/-! DEFINITION. Every flag value written to VF (10_state.md R21, R38): exactly 0 or 1, computed from the operands
as they were before the instruction (42_arith_register.md R129). -/

namespace Sys2Proof.Machine

/-- A flag as the byte written to VF (R21). -/
def flagByte (b : Bool) : Byte := if b then 1#8 else 0#8

/-- Carry of 8XY4: the exact sum exceeds 255 (R124, R130). -/
def carryFlag (a b : Byte) : Byte := flagByte (decide (255 < a.toNat + b.toNat))

/-- Inverse borrow of `a - b`: 1 iff `a >= b` (R125, R127, R130). -/
def noBorrowFlag (a b : Byte) : Byte := flagByte (decide (b.toNat ≤ a.toNat))

/-- The bit 8XY6 shifts out: bit 0 of the old value (R126). -/
def shrFlag (a : Byte) : Byte := flagByte (a.getLsbD 0)

/-- The bit 8XYE shifts out: bit 7 of the old value (R128). -/
def shlFlag (a : Byte) : Byte := flagByte (a.getLsbD 7)

/-- The collision flag of DXYN (R172). -/
def collisionFlag (c : Bool) : Byte := flagByte c

end Sys2Proof.Machine
end

