-- ==== Sys2Proof/WellFormed.lean ====
section
/-! DEFINITION. Which instructions have an encoding. Register indices, NN and NNN carry their widths in their
types, so the one check left is the sprite height of DXYN, 0 to 15 rows (30_encoding.md R72, R73). -/

namespace Sys2Proof

/-- The height of a sprite fits the 4-bit field N (R72). -/
def spriteHeightFits (n : Nat) : Bool := decide (n < 16)

/-- An instruction that some opcode encodes. -/
def Instr.wellFormed : Instr → Bool
  | .drw _ _ n => spriteHeightFits n
  | .cls | .ret | .jp _ | .call _ | .seImm _ _ | .sneImm _ _ | .seReg _ _ | .ldImm _ _ | .addImm _ _
  | .ldReg _ _ | .orReg _ _ | .andReg _ _ | .xorReg _ _ | .addReg _ _ | .subReg _ _ | .shr _ _ | .subn _ _
  | .shl _ _ | .sneReg _ _ | .ldI _ | .jpV0 _ | .rnd _ _ | .skp _ | .sknp _ | .ldVxDt _ | .ldVxK _
  | .ldDtVx _ | .ldStVx _ | .addI _ | .ldF _ | .ldB _ | .dump _ | .load _ => true

@[simp] theorem spriteHeightFits_iff (n : Nat) : spriteHeightFits n = true ↔ n < 16 := by
  simp [spriteHeightFits]

@[simp] theorem wellFormed_drw (x y : Reg) (n : Nat) :
    (Instr.drw x y n).wellFormed = true ↔ n < 16 := spriteHeightFits_iff n

end Sys2Proof
end

