-- ==== Sys2Proof/Machine/Operands.lean ====
section
/-! DEFINITION. The operand forms (30_encoding.md R72, R73): register, immediate NN, address NNN, the data
address I, and an index taken from a register. No immediate is sign-extended, scaled or shifted. -/

namespace Sys2Proof.Machine

/-- `zext_16(NNN)`, as it is written to I or PC (R73). -/
def zextAddr (nnn : Addr) : Word := trunc16 nnn.toNat

/-- The base address I of a data access, a natural number that is never wrapped (20_memory.md R52, 44_memory_index.md R165). -/
def State.base (s : State) : Nat := s.I.toNat

/-- `NNN + V0`, the target of `JP V0, NNN` (43_control_flow.md R143); at most 0x10FE, so 16 bits hold it. -/
def offsetTarget (nnn : Addr) (v0 : Byte) : Word := trunc16 (nnn.toNat + v0.toNat)

/-- A key index from a register, when it is one of the 16 (46_input.md R185). -/
def keyIndex (b : Byte) : Option (Fin 16) := if h : b.toNat < 16 then some ⟨b.toNat, h⟩ else none

/-- A key index as a register receives it (46_input.md R184). -/
def keyByte (k : Fin 16) : Byte := trunc8 k.val

/-- The address of the glyph of a digit, `FONT_BASE + 5 * d`, for a digit 0 to 15 (44_memory_index.md R162, R163). -/
def glyphAddr (d : Byte) : Option Word :=
  if d.toNat < 16 then some (trunc16 (Config.fontBase.val + 5 * d.toNat)) else none

/-- V0 to VX in ascending order (48_bcd_regdump.md R201). -/
def regsUpTo (s : State) (x : Reg) : List Byte := s.V.toList.take (x.val + 1)

/-- The register file with `bs` in V0, V1, ... and the rest unchanged (48_bcd_regdump.md R202). -/
def regsLoaded (V : Vector Byte 16) (bs : List Byte) : Vector Byte 16 :=
  Vector.ofFn (fun k => bs.getD k.val (V.get k))

/-- The three decimal digits of a byte, most significant first (48_bcd_regdump.md R200). -/
def bcdDigits (b : Byte) : List Byte :=
  [trunc8 (b.toNat / 100), trunc8 (b.toNat / 10 % 10), trunc8 (b.toNat % 10)]

end Sys2Proof.Machine
end

