-- ==== Sys2Proof/Machine/Alu.lean ====
section
/-! DEFINITION. The 8-bit ALU's results (42_arith_register.md R130) and the shared shapes of an instruction's
next state: a register write (R120), a register write with the flag written last (R129), a skip
(43_control_flow.md R148). -/

namespace Sys2Proof.Machine

/-- The low 8 bits of the exact sum (R130). -/
def aluAdd (a b : Byte) : Byte := trunc8 (a.toNat + b.toNat)

/-- `(a - b) mod 256` (R130). -/
def aluSub (a b : Byte) : Byte := trunc8 (a.toNat + 256 - b.toNat)

/-- `floor(a / 2)`: a shift right by one, filled with 0 (R126). -/
def aluShr (a : Byte) : Byte := trunc8 (a.toNat / 2)

/-- A shift left by one, truncated to 8 bits (R128). -/
def aluShl (a : Byte) : Byte := trunc8 (2 * a.toNat)

/-- The instruction writes `V[x]` and nothing else but the pc. -/
def writeReg (x : Reg) (r : Byte) (s : State) : Result := .next (s.advance.setReg x r)

/-- The instruction writes `V[x] <- r`, then `VF <- f`: the flag lands last (R129, D8). -/
def writeRegFlag (x : Reg) (r f : Byte) (s : State) : Result := .next ((s.advance.setReg x r).setReg VF f)

/-- `if c then pc <- pc + 2` after the advance: the common rule of the skips (R148). -/
def skipIf (c : Bool) (s : State) : Result := .next (if c then s.advance.advance else s.advance)

end Sys2Proof.Machine
end

