-- ==== Sys2Proof/Machine/ArithImmediate.lean ====
section
/-! DEFINITION. The arithmetic-immediate family: 6XNN, 7XNN, CXNN (41_arith_immediate.md). Each meaning takes the
state before the step, pc at the instruction, and makes the advance of R92 itself (log 11). -/

namespace Sys2Proof.Machine

/-- `LD Vx, NN` (R110). -/
def execLdImm (x : Reg) (nn : Byte) (s : State) : Result := writeReg x nn s

/-- `ADD Vx, NN` (R111): VF is not written as a flag (D6). -/
def execAddImm (x : Reg) (nn : Byte) (s : State) : Result := writeReg x (aluAdd (s.reg x) nn) s

/-- `RND Vx, NN` (R112): a free draw masked by NN; the draw is the next of `Config.draw8` (log 4). -/
def execRnd (x : Reg) (nn : Byte) (s : State) : Result :=
  writeReg x (Config.draw8 s.draws &&& nn) (s.setDraws (s.draws + 1))

end Sys2Proof.Machine
end

