-- ==== Sys2Proof/Machine/ArithRegister.lean ====
section
/-! DEFINITION. The arithmetic-register family: 8XY0 to 8XYE (42_arith_register.md). Operands are read from the
state before the step; a flag is written after the primary result (R129). -/

namespace Sys2Proof.Machine

/-- `LD Vx, Vy` (R120). -/
def execLdReg (x y : Reg) (s : State) : Result := writeReg x (s.reg y) s

/-- `OR Vx, Vy` (R121): VF is not written as a flag (D5). -/
def execOrReg (x y : Reg) (s : State) : Result := writeReg x (s.reg x ||| s.reg y) s

/-- `AND Vx, Vy` (R122): VF is not written as a flag (D5). -/
def execAndReg (x y : Reg) (s : State) : Result := writeReg x (s.reg x &&& s.reg y) s

/-- `XOR Vx, Vy` (R123): VF is not written as a flag (D5). -/
def execXorReg (x y : Reg) (s : State) : Result := writeReg x (s.reg x ^^^ s.reg y) s

/-- `ADD Vx, Vy` (R124). -/
def execAddReg (x y : Reg) (s : State) : Result :=
  writeRegFlag x (aluAdd (s.reg x) (s.reg y)) (carryFlag (s.reg x) (s.reg y)) s

/-- `SUB Vx, Vy` (R125): minuend Vx, subtrahend Vy. -/
def execSubReg (x y : Reg) (s : State) : Result :=
  writeRegFlag x (aluSub (s.reg x) (s.reg y)) (noBorrowFlag (s.reg x) (s.reg y)) s

/-- `SHR Vx {, Vy}` (R126): Vx in place, Y ignored (D3). -/
def execShr (x _y : Reg) (s : State) : Result := writeRegFlag x (aluShr (s.reg x)) (shrFlag (s.reg x)) s

/-- `SUBN Vx, Vy` (R127): minuend Vy, subtrahend Vx. -/
def execSubn (x y : Reg) (s : State) : Result :=
  writeRegFlag x (aluSub (s.reg y) (s.reg x)) (noBorrowFlag (s.reg y) (s.reg x)) s

/-- `SHL Vx {, Vy}` (R128): Vx in place, Y ignored (D3). -/
def execShl (x _y : Reg) (s : State) : Result := writeRegFlag x (aluShl (s.reg x)) (shlFlag (s.reg x)) s

end Sys2Proof.Machine
end

