-- ==== Sys2Proof/Machine/BcdDump.lean ====
section
/-! DEFINITION. The BCD and register-dump family: FX33, FX55, FX65 (48_bcd_regdump.md). I is unchanged by all
three (D4); each does all its accesses or none (20_memory.md R64). -/

namespace Sys2Proof.Machine

/-- The state after bytes are stored from I upward, or the error with none stored. -/
def storeAtI (bs : List Byte) (s : State) : Result :=
  match writeRange s.mem s.base bs with
  | .ok m => .next (s.advance.setMem m)
  | .error e => takeFault e s

/-- `LD B, Vx` (R200). -/
def execLdB (x : Reg) (s : State) : Result := storeAtI (bcdDigits (s.reg x)) s

/-- `LD [I], Vx` (R201). -/
def execDump (x : Reg) (s : State) : Result := storeAtI (regsUpTo s x) s

/-- `LD Vx, [I]` (R202). -/
def execLoad (x : Reg) (s : State) : Result :=
  match readRange s.mem s.base (x.val + 1) with
  | .ok bs => .next (s.advance.setV (regsLoaded s.V bs))
  | .error e => takeFault e s

end Sys2Proof.Machine
end

