-- ==== Sys2Proof/Machine/ControlFlow.lean ====
section
/-! DEFINITION. The control-flow family: 1NNN, 2NNN, 00EE, BNNN and the four register skips
(43_control_flow.md). -/

namespace Sys2Proof.Machine

/-- `JP NNN` (R140). -/
def execJp (nnn : Addr) (s : State) : Result := .next (s.setPc (zextAddr nnn))

/-- `CALL NNN` (R141): pushes the advanced pc, or raises StackOverflowError with the address of the CALL. -/
def execCall (nnn : Addr) (s : State) : Result :=
  match pushStack s.stack s.advance.pc with
  | some st => .next ((s.setStack st).setPc (zextAddr nnn))
  | none => takeFault (.stackOverflowError s.pc) s

/-- `RET` (R142): pops the pc, or raises StackUnderflowError with the address of the RET. -/
def execRet (s : State) : Result :=
  match popStack s.stack with
  | some (v, st) => .next ((s.setStack st).setPc v)
  | none => takeFault (.stackUnderflowError s.pc) s

/-- `JP V0, NNN` (R143): the offset register is V0 whatever `op[11:8]` is (D7). -/
def execJpV0 (nnn : Addr) (s : State) : Result := .next (s.setPc (offsetTarget nnn (s.reg V0)))

/-- `SE Vx, NN` (R144). -/
def execSeImm (x : Reg) (nn : Byte) (s : State) : Result := skipIf (s.reg x == nn) s

/-- `SNE Vx, NN` (R145). -/
def execSneImm (x : Reg) (nn : Byte) (s : State) : Result := skipIf (s.reg x != nn) s

/-- `SE Vx, Vy` (R146). -/
def execSeReg (x y : Reg) (s : State) : Result := skipIf (s.reg x == s.reg y) s

/-- `SNE Vx, Vy` (R147). -/
def execSneReg (x y : Reg) (s : State) : Result := skipIf (s.reg x != s.reg y) s

end Sys2Proof.Machine
end

