-- ==== Sys2Proof/Machine/Display.lean ====
section
/-! DEFINITION. The GPU and the display family: 00E0, DXYN (45_display.md). -/

namespace Sys2Proof.Machine

/-- The pixel `fb[y][x]` (10_state.md R31). -/
def pixel (fb : Display) (x : Fin 64) (y : Fin 32) : Bool := (fb.get y).getLsbD x.val

/-- `fb[y][x] <- fb[y][x] XOR 1` (R172). -/
def flipPixel (fb : Display) (x : Fin 64) (y : Fin 32) : Display :=
  fb.set y.val (fb.get y ^^^ (1#64 <<< x.val)) y.isLt

/-- Column `n mod 64`: wrap per pixel (R172). -/
def columnOf (n : Nat) : Fin 64 := Fin.ofNat 64 n

/-- Row `n mod 32`: wrap per pixel (R172). -/
def rowOf (n : Nat) : Fin 32 := Fin.ofNat 32 n

/-- Bit `c` of a sprite row counted from the left: `row[7-c]`, so c = 0 is the most significant bit (R173). -/
def spriteBit (row : Byte) (c : Nat) : Bool := row.getLsbD (7 - c)

/-- The pixels one sprite row aims at, from left to right: those of its 1 bits (R172, R173). -/
def rowPixels (x0 y : Nat) (row : Byte) : List (Fin 64 × Fin 32) :=
  ((List.range Config.spriteW).filter (spriteBit row)).map (fun c => (columnOf (x0 + c), rowOf y))

/-- The pixels a sprite at `(x0, y0)` aims at, row by row (R172). -/
def spritePixels (x0 y0 : Nat) : List Byte → List (Fin 64 × Fin 32)
  | [] => []
  | row :: rows => rowPixels x0 y0 row ++ spritePixels x0 (y0 + 1) rows

/-- Draw-sprite's loop (R170, R172): flip each pixel aimed at; the Boolean is the collision, true once a pixel
was 1 before its flip. -/
def flipAll (fb : Display) (c : Bool) : List (Fin 64 × Fin 32) → Display × Bool
  | [] => (fb, c)
  | (x, y) :: ps => flipAll (flipPixel fb x y) (c || pixel fb x y) ps

/-- The buffer with every pixel 0 (R171). -/
def clearDisplay : Display := Vector.replicate 32 0#64

/-- Whether a draw of `rows` that aims at `ps` sets `dirty`: when a pixel flipped, or on every draw of at least one
row where the implementation does so (R172, R175, U1); a draw of no rows leaves it alone (R172, D17; log 5). -/
def drawSetsDirty (rows : List Byte) (ps : List (Fin 64 × Fin 32)) : Bool :=
  !ps.isEmpty || (!rows.isEmpty && Config.dirtyAlwaysOnDraw)

/-- The state after drawing sprite rows `rows` at `(x0, y0)`: buffer, dirty flag, VF (R172). -/
def drawRows (x0 y0 : Nat) (rows : List Byte) (s : State) : State :=
  let ps := spritePixels x0 y0 rows
  let r := flipAll s.fb false ps
  ((s.setFb r.1).setDirty (s.dirty || drawSetsDirty rows ps)).setReg VF (collisionFlag r.2)

/-- `CLS` (R171): `dirty` is set even if the buffer was clear. -/
def execCls (s : State) : Result := .next ((s.advance.setFb clearDisplay).setDirty true)

/-- `DRW Vx, Vy, N` (R172): all rows are read first, and coordinates before VF is written. -/
def execDrw (x y : Reg) (n : Nat) (s : State) : Result :=
  match readRange s.mem s.base n with
  | .ok rows => .next (drawRows (s.reg x).toNat (s.reg y).toNat rows s.advance)
  | .error e => takeFault e s

end Sys2Proof.Machine
end

