-- ==== Sys2Proof/Machine/Input.lean ====
section
/-! DEFINITION. The input family: EX9E, EXA1, FX0A, and the waiting poll (46_input.md). -/

namespace Sys2Proof.Machine

/-- `SKP Vx` (R180): refused for an index above 15 (R185, U3; log 9). -/
def execSkp (x : Reg) (s : State) : Result :=
  match keyIndex (s.reg x) with
  | some k => skipIf (isKeyPressed s.key k) s
  | none => .refused (.keyIndexOutOfRange (s.reg x))

/-- `SKNP Vx` (R181): refused for an index above 15 (R185, U3; log 9). -/
def execSknp (x : Reg) (s : State) : Result :=
  match keyIndex (s.reg x) with
  | some k => skipIf (isKeyNotPressed s.key k) s
  | none => .refused (.keyIndexOutOfRange (s.reg x))

/-- `LD Vx, K` (R182): enters the wait and does not look at the keys (D11); the pc advances once (R183). -/
def execLdVxK (x : Reg) (s : State) : Result := .next (s.advance.setWait (some x))

/-- `WaitPoll(s, r)`, the step of a waiting CPU (R184). -/
def waitPoll (r : Reg) (s : State) : State :=
  match firstPressedKey s.key with
  | some k => (s.setReg r (keyByte k)).setWait none
  | none => s

end Sys2Proof.Machine
end

