-- ==== Sys2Proof/Machine/MemoryIndex.lean ====
section
/-! DEFINITION. The memory/index family: ANNN, FX1E, FX29 (44_memory_index.md). None accesses Memory. -/

namespace Sys2Proof.Machine

/-- `LD I, NNN` (R160). -/
def execLdI (nnn : Addr) (s : State) : Result := .next (s.advance.setI (zextAddr nnn))

/-- `ADD I, Vx` (R161): modulo 65536, VF not written (D6, D22). -/
def execAddI (x : Reg) (s : State) : Result := .next (s.advance.setI (trunc16 (s.I.toNat + (s.reg x).toNat)))

/-- `LD F, Vx` (R162): refused for a digit above 15 (R163, U4; log 9). -/
def execLdF (x : Reg) (s : State) : Result :=
  match glyphAddr (s.reg x) with
  | some a => .next (s.advance.setI a)
  | none => .refused (.fontDigitOutOfRange (s.reg x))

end Sys2Proof.Machine
end

