-- ==== Sys2Proof/Machine/Timer.lean ====
section
/-! DEFINITION. The timer family: FX07, FX15, FX18 (47_timer.md). -/

namespace Sys2Proof.Machine

/-- `LD Vx, DT` (R190). -/
def execLdVxDt (x : Reg) (s : State) : Result := writeReg x s.DT s

/-- `LD DT, Vx` (R191). -/
def execLdDtVx (x : Reg) (s : State) : Result := .next (s.advance.setDT (s.reg x))

/-- `LD ST, Vx` (R192). -/
def execLdStVx (x : Reg) (s : State) : Result := .next (s.advance.setST (s.reg x))

end Sys2Proof.Machine
end

