-- ==== Sys2Proof/Machine/Fetch.lean ====
section
/-! DEFINITION. Fetching an instruction, and the order of work of a step around its execution
(40_step_cycle.md R91, R93, R95). -/

namespace Sys2Proof.Machine

/-- The word at an address: two bounds-checked byte reads, big-endian (R91, 20_memory.md R50). -/
def fetchWord (m : Memory) (pc : Word) : Except Fault Word :=
  match memRead m pc.toNat with
  | .error e => .error e
  | .ok b0 =>
    match memRead m (pc.toNat + 1) with
    | .error e => .error e
    | .ok b1 => .ok (opcodeOf b0 b1)

/-- Decoding as a step meets it: an illegal word raises DecodeError (R93, R212). -/
def decodeAt (pc op : Word) : Except Fault Instr :=
  match decode op with
  | .ok i => .ok i
  | .error _ => .error (.decodeError op pc)

/-- Steps 3 to 6 of R95: fetch and decode at the pc. -/
def fetchInstr (s : State) : Except Fault Instr :=
  match fetchWord s.mem s.pc with
  | .error e => .error e
  | .ok op => decodeAt s.pc op

/-- One step with `ex` as its execution (R95): nothing on a dead session, one poll in the waiting mode, else fetch,
decode and execute. The advance of R92 is made by each meaning (log 11). -/
def stepWith (ex : Instr → State → Result) (s : State) : Result :=
  match s.fault with
  | some _ => .next s
  | none =>
    match s.wait with
    | some r => .next (waitPoll r s)
    | none =>
      match fetchInstr s with
      | .error e => takeFault e s
      | .ok i => ex i s

/-- A two-byte word stored at an address, most significant byte first (R50). -/
def storeWord (m : Memory) (a : Nat) (op : Word) : Memory :=
  Memory.write (Memory.write m a (hiByte op)) (a + 1) (loByte op)

/-- The pc if a whole instruction can be fetched there, else the program origin. -/
def fetchablePc (pc : Word) : Word := if pc.toNat + 1 < Config.memSize then pc else 0x200#16

/-- `s` made ready to fetch `op` next: the word stored at the pc, no wait and no fault in the way (log 10). -/
def placeWord (s : State) (op : Word) : State :=
  { s with
    pc := fetchablePc s.pc
    mem := storeWord s.mem (fetchablePc s.pc).toNat op
    wait := none
    fault := none }

end Sys2Proof.Machine
end

