-- ==== Sys2Proof/Machine/Step.lean ====
section
/-! DEFINITION. `step()` (40_step_cycle.md R90, R95), and the state in which its next fetch finds a given word. -/

namespace Sys2Proof.Machine

/-- `step()` (R95). -/
def step (s : State) : Host.Outcome State Fault Refusal := stepWith exec s

/-- `s` with the instruction of bits `w` (numbered as the opcode table does) where `step` fetches next (log 10). -/
def State.withFetchWord (s : State) (nbits w : Nat) : State := placeWord s (tableWord nbits w)

end Sys2Proof.Machine
end

