-- ==== Sys2Proof/Machine/Session.lean ====
section
/-! DEFINITION. The transactions of the core's collaborators beside `step()` (00_scope.md R7, 60_exceptions.md R222
to R228), reset and program load (70_reset_and_hazards.md R240 to R242), what a step returns to its caller, and
sessions in which any of them interleave (R223, D24; log 7). -/

namespace Sys2Proof.Machine

/-- `init(rom)` (R240, R242): the reset state with the ROM at 0x200; refused when the image does not fit (D25). -/
def initCore (rom : List Byte) : Result :=
  match writeRange State.reset.mem Config.progOrigin rom with
  | .ok m => .next (State.reset.setMem m)
  | .error _ => .refused (.romTooLong rom.length)

/-- `init(rom)` in a session: everything the spec gives the machine is recreated (R240, R241). The model's own counter
of free draws runs on, so that no draw after `init` is tied to one before it (log 4). -/
def initFrom (rom : List Byte) (s : State) : Result :=
  match initCore rom with
  | .next t => .next (t.setDraws s.draws)
  | .fault e => .fault e
  | .refused r => .refused r

/-- `tick_timers()` (R222); nothing on a dead session (R214). -/
def tickTimers (s : State) : State :=
  match s.fault with
  | some _ => s
  | none => (s.setDT (tickTimer s.DT)).setST (tickTimer s.ST)

/-- `set_key_status(index, pressed)` (R224); an index above 15 is outside the interface (D27; log 15). -/
def setKeyStatus (k : Fin 16) (pressed : Bool) (s : State) : State := s.setKeys (s.key.set k.val pressed k.isLt)

/-- `consume_dirty()` (R226): the flag's value, and the state with it cleared. -/
def consumeDirty (s : State) : Bool × State := (s.dirty, s.setDirty false)

/-- Render read (R225): a snapshot of the buffer and the dirty flag; its format is not architected (log 12). -/
def renderRead (s : State) : Display × Bool := (s.fb, s.dirty)

/-- `sound_active()` (R227). -/
def soundActive (s : State) : Bool := s.ST != 0#8

/-- What a `step()` from `s` returns or raises to its caller (R211): the error this step recorded, if it did. -/
def raisedBy (s : State) : Option Fault :=
  match s.fault, step s with
  | none, .next t => t.fault
  | _, _ => none

/-- A transaction that can change the core (R7). -/
inductive Transaction where
  /-- `step()` -/
  | step
  /-- `tick_timers()` -/
  | tickTimers
  /-- `set_key_status(k, pressed)` -/
  | setKeyStatus (k : Fin 16) (pressed : Bool)
  /-- `consume_dirty()` -/
  | consumeDirty
  /-- `init(rom)` -/
  | init (rom : List Byte)
  deriving DecidableEq, Repr

/-- A transaction of the input or rendering collaborator, to which R214 gives no meaning on a dead session (log 8). -/
def unlessDead (s t : State) : Result :=
  match s.fault with
  | some _ => .refused .deadSession
  | none => .next t

/-- The effect of one transaction. -/
def transact (tr : Transaction) (s : State) : Result :=
  match tr with
  | .step => step s
  | .tickTimers => .next (tickTimers s)
  | .setKeyStatus k pressed => unlessDead s (setKeyStatus k pressed s)
  | .consumeDirty => unlessDead s (consumeDirty s).2
  | .init rom => initFrom rom s

/-- A session: the transactions of a schedule in order, stopping at the first refusal (R223, D24). DESIGN CHOICE: it ends
where its finite schedule ends, neither at a fatal error nor at an `init` inside it, since the spec leaves the end of
a run to the model (40_step_cycle.md R100, D32; log 17). -/
def runSchedule : List Transaction → State → Result
  | [], s => .next s
  | tr :: trs, s =>
    match transact tr s with
    | .next t => runSchedule trs t
    | .fault e => .fault e
    | .refused r => .refused r

end Sys2Proof.Machine
end

