-- ==== Sys2Proof/Safety.lean ====
section
/-! DEFINITION. The words claims are stated in: the invariant of the machine, what an instruction leaves unchanged,
skipping, raising, and the pixels a sprite covers. -/

namespace Sys2Proof.Safety

open Sys2Proof.Machine

/-- A live session: no fatal error is recorded (60_exceptions.md R214). -/
def Live (s : State) : Prop := s.fault = none

/-- A safe step: it answers a next state that is still live. -/
def SafeStep (s : State) : Prop := ∃ t, step s = .next t ∧ Live t

/-- A safe run of `k` steps: no fatal error and no refusal along it; the fault status is never cleared on the way (R214),
so its end tells. DESIGN CHOICE: the spec defines no end of a run (40_step_cycle.md R100, D32: "the model's own
definition"); here a run ends after a number of steps `k` that the claim names or quantifies over. Log 17. -/
def SafeRun (k : Nat) (s : State) : Prop := ∃ t, Host.Core.run Sys2Proof.core k s = .next t ∧ Live t

/-- The invariant of the machine: memory in its canonical form, the stack within its depth (10_state.md R28), every
return address at most 0x1000 and the pc at most 0x10FE (10_state.md R25, R39). -/
def MachineInv (s : State) : Prop :=
  Memory.wf s.mem = true ∧ s.stack.length ≤ 16 ∧ (∀ v ∈ s.stack, v.toNat ≤ 0x1000) ∧ s.pc.toNat ≤ 0x10FE

/-- The parts of the state beside the general registers and the pc. -/
inductive Part where
  | I | DT | ST | stack | mem | fb | dirty | key | wait | fault | draws
  deriving DecidableEq, Repr

/-- Going from `s` to `t`, every general register but those of `regs`, every part but those of `parts`, and every byte
of memory where memory is not among them, is unchanged. The pc is stated apart. -/
def ChangesOnly (regs : List Reg) (parts : List Part) (s t : State) : Prop :=
  (∀ k, k ∉ regs → t.reg k = s.reg k) ∧
  (.I ∉ parts → t.I = s.I) ∧ (.DT ∉ parts → t.DT = s.DT) ∧ (.ST ∉ parts → t.ST = s.ST) ∧
  (.stack ∉ parts → t.stack = s.stack) ∧
  (.mem ∉ parts → ∀ a, Memory.read t.mem a = Memory.read s.mem a) ∧
  (.fb ∉ parts → t.fb = s.fb) ∧ (.dirty ∉ parts → t.dirty = s.dirty) ∧ (.key ∉ parts → t.key = s.key) ∧
  (.wait ∉ parts → t.wait = s.wait) ∧ (.fault ∉ parts → t.fault = s.fault) ∧
  (.draws ∉ parts → t.draws = s.draws)

/-- `i` completes, its pc at a + 4 where `c` holds and at a + 2 otherwise, and changes nothing else
(43_control_flow.md R148). -/
def SkipsWhen (c : Prop) (i : Instr) (s : State) : Prop :=
  ∃ t, exec i s = .next t ∧ (c → t.pc = s.pc + 4#16) ∧ (¬ c → t.pc = s.pc + 2#16) ∧ ChangesOnly [] [] s t

/-- `i` raises `e`: the fault status records it and nothing else changes (60_exceptions.md R211). -/
def Raises (e : Fault) (i : Instr) (s : State) : Prop := exec i s = .next (s.setFault (some e))

/-- The sprite of `n` rows at I, drawn at `(x0, y0)`, has a 1 bit that lands on the pixel `(px, py)`
(45_display.md R172, R173). -/
def SpriteCovers (s : State) (x0 y0 n : Nat) (px : Fin 64) (py : Fin 32) : Prop :=
  ∃ r c, r < n ∧ c < 8 ∧ (Memory.read s.mem (s.I.toNat + r)).getLsbD (7 - c) = true ∧
    px.val = (x0 + c) % 64 ∧ py.val = (y0 + r) % 32

/-- The instruction word at the pc: `256 * mem[pc] + mem[pc + 1]` (40_step_cycle.md R91). -/
def wordAtPc (s : State) : Nat :=
  256 * (Memory.read s.mem s.pc.toNat).toNat + (Memory.read s.mem (s.pc.toNat + 1)).toNat

/-- `s` has nothing in the way of a fetch: it is live and not waiting (R95). -/
def Fetching (s : State) : Prop := s.fault = none ∧ s.wait = none

end Sys2Proof.Safety
end

