-- ==== Sys2Proof/Certificates/Slice0/Obligations.lean ====
section
/-! DEFINITION. The statements for the provers, each a Prop named for what it states. `OBLIGATIONS.json` lists them
with the rules they rest on. -/

open Sys2Proof Sys2Proof.Machine Sys2Proof.Safety

/-! ## Encoding -/

/-- No bit of an encoding is dropped: decoding an encoded well-formed instruction gives it back (R74, R75). -/
def Obligations.DecodeOfEncodeIsTheInstruction : Prop :=
  ∀ i : Instr, i.wellFormed = true →
    decode (encode i) = .ok i ∧ ∀ rest, decodeBytes (encodeBytes i ++ rest) = .ok (i, rest)

/-- Each legal word has one meaning: what it decodes to is well formed and encodes to that word (R74, R75). -/
def Obligations.EncodeOfDecodeIsTheOpcode : Prop :=
  ∀ (op : Word) (i : Instr), decode op = .ok i → i.wellFormed = true ∧ encode i = op

/-- Decoding is strict and total (R74, R75, R76): a word decodes exactly when some row of the opcode map selects it, to an
instruction of a row that selects it; every other word is illegal. -/
def Obligations.DecodeAcceptsExactlyTheOpcodeMap : Prop :=
  (∀ op : Word, (∃ i, decode op = .ok i) ↔ ∃ r ∈ opcodeMap, r.selects op = true) ∧
  (∀ (op : Word) (i : Instr), decode op = .ok i → i.row ∈ opcodeMap ∧ i.row.selects op = true) ∧
  (∀ op : Word, (¬ ∃ r ∈ opcodeMap, r.selects op = true) → decode op = .error (.illegalOpcode op))

/-- The rows of the opcode map are pairwise disjoint: no opcode matches two rows (R75). -/
def Obligations.OpcodeMapRowsAreDisjoint : Prop :=
  ∀ (op : Word) (r q : OpcodeRow), r ∈ opcodeMap → q ∈ opcodeMap → r.selects op = true → q.selects op = true → r = q

/-- Words written out bit by bit from the encodings of R75, at least one per family, decode to what they stand for. -/
def Obligations.WrittenOutWordsDecode : Prop :=
  decode 0b0000000011100000#16 = .ok .cls ∧
  decode 0b0000000011101110#16 = .ok .ret ∧
  decode 0b0010001100000000#16 = .ok (.call 0x300#12) ∧
  decode 0b0101000100100000#16 = .ok (.seReg 1 2) ∧
  decode 0b0111001100100000#16 = .ok (.addImm 3 0x20#8) ∧
  decode 0b1000111100010101#16 = .ok (.subReg 15 1) ∧
  decode 0b1010001011110000#16 = .ok (.ldI 0x2F0#12) ∧
  decode 0b1101000000010010#16 = .ok (.drw 0 1 2) ∧
  decode 0b1110001010100001#16 = .ok (.sknp 2) ∧
  decode 0b1111010100010101#16 = .ok (.ldDtVx 5) ∧
  decode 0b1111001001100101#16 = .ok (.load 2)

/-! ## The step cycle -/

/-- A step of a live, not waiting core runs the decoded instruction: when the two bytes at the pc are in range and
decode to a well-formed instruction, `step` is `exec` of it at the same state (R91, R95). Nothing else is added around
`exec`: each meaning makes the advance of R92 itself (log 11). -/
def Obligations.StepRunsTheDecodedInstruction : Prop :=
  ∀ (s : State) (i : Instr), Fetching s → s.pc.toNat + 1 < 4096 → decode (BitVec.ofNat 16 (wordAtPc s)) = .ok i →
    i.wellFormed = true → step s = exec i s

/-- Fetch reads two bytes, each bounds-checked (R91): a byte outside memory raises MemoryBoundsError with its
address, and nothing else happens. -/
def Obligations.FetchOutsideMemoryRaisesBoundsError : Prop :=
  ∀ s : State, Fetching s →
    (4096 ≤ s.pc.toNat → step s = .next (s.setFault (some (.memoryBoundsError s.pc.toNat)))) ∧
    (s.pc.toNat = 4095 → step s = .next (s.setFault (some (.memoryBoundsError 4096))))

/-- An illegal opcode raises DecodeError with the opcode and its address and mutates nothing else (R93). -/
def Obligations.IllegalOpcodeRaisesDecodeError : Prop :=
  ∀ s : State, Fetching s → s.pc.toNat + 1 < 4096 →
    (¬ ∃ r ∈ opcodeMap, r.selects (BitVec.ofNat 16 (wordAtPc s)) = true) →
    step s = .next (s.setFault (some (.decodeError (BitVec.ofNat 16 (wordAtPc s)) s.pc)))

/-- A dead session is absorbing: step and tick change nothing, and no transaction but `init` clears the error (R214, R35). -/
def Obligations.DeadSessionIsAbsorbing : Prop :=
  ∀ (s : State) (e : Fault), s.fault = some e →
    step s = .next s ∧ tickTimers s = s ∧
    ∀ (tr : Transaction) (t : State), (∀ rom, tr ≠ .init rom) → transact tr s = .next t → t.fault = some e

/-- The waiting step (R184, R187): with no key pressed nothing changes; else the lowest pressed key goes to the waiting
register and the wait ends. In both cases there is no fetch and the pc stays. -/
def Obligations.WaitingStepPollsTheKeys : Prop :=
  ∀ (s : State) (r : Reg), s.fault = none → s.wait = some r →
    ((∀ k : Fin 16, s.key.get k = false) → step s = .next s) ∧
    ∀ k : Fin 16, s.key.get k = true → (∀ j : Fin 16, j < k → s.key.get j = false) →
      ∃ t, step s = .next t ∧ (t.reg r).toNat = k.val ∧ t.wait = none ∧ t.pc = s.pc ∧ ChangesOnly [r] [.wait] s t

/-- Faults are precise (R98, R211): a step that returns an error to its caller started live and records that error in the
fault status, every other component as before; and a step that records one returns it. -/
def Obligations.RaisedFaultsArePrecise : Prop :=
  (∀ (s : State) (e : Fault), raisedBy s = some e → s.fault = none ∧ step s = .next (s.setFault (some e))) ∧
  (∀ s t : State, step s = .next t → t.fault ≠ s.fault → raisedBy s = t.fault)

/-- No instruction has two checks of different kinds (R217): CALL raises only overflow, RET only underflow, DRW, LD B and
the register dump and load only the bounds error of the lowest address out of range, all others nothing. -/
def Obligations.EachInstructionRaisesOnlyItsOwnError : Prop :=
  ∀ (i : Instr) (s t : State) (e : Fault), s.fault = none → exec i s = .next t → t.fault = some e →
    ((∃ nnn, i = .call nnn) ∧ e = .stackOverflowError s.pc) ∨
    (i = .ret ∧ e = .stackUnderflowError s.pc) ∨
    (((∃ x y n, i = .drw x y n) ∨ (∃ x, i = .ldB x) ∨ (∃ x, i = .dump x) ∨ (∃ x, i = .load x)) ∧
      e = .memoryBoundsError (max s.I.toNat 4096))

/-- Only EX9E, EXA1 and FX29 are ever refused, and only with Vx above 15 (R96, R230). That no step ends in
`Outcome.fault` is the model's own form of a fatal error, which is a next state (log 1). -/
def Obligations.OnlyOutOfRangeOperandsAreRefused : Prop :=
  (∀ (i : Instr) (s : State) (r : Refusal), exec i s = .refused r →
    ∃ x, 15 < (s.reg x).toNat ∧
      (((i = .skp x ∨ i = .sknp x) ∧ r = .keyIndexOutOfRange (s.reg x)) ∨
       (i = .ldF x ∧ r = .fontDigitOutOfRange (s.reg x)))) ∧
  (∀ (s : State) (e : Fault), step s ≠ .fault e)

/-! ## Invariants -/

/-- The reset state meets the invariant. The canonical form of memory in it is the model's own (log 13). -/
def Obligations.ResetMeetsTheInvariant : Prop := MachineInv State.reset

/-- Every step keeps the invariant: memory stays canonical, the stack within 16 entries (R28), return addresses within
0x1000 and the pc within 0x10FE (R25, R39). The canonical form of memory is the model's own (log 13). -/
def Obligations.EveryStepKeepsTheInvariant : Prop :=
  ∀ s t : State, MachineInv s → step s = .next t → MachineInv t

/-- Every schedule of steps, ticks, key changes, dirty reads and re-initialisations keeps the invariant, from every state
that meets it (R7, R223): the stack within 16 entries (R28), return addresses within 0x1000 and the pc within 0x10FE
(R25, R39). The canonical form of memory, the schedule as a list of transactions and its end as the end of the run are
the model's own (logs 13, 7 and 17). -/
def Obligations.EveryScheduleKeepsTheInvariant : Prop :=
  ∀ (trs : List Transaction) (s t : State), MachineInv s → runSchedule trs s = .next t → MachineInv t

/-! ## Rules of the whole machine -/

/-- Each part of the state has its only writers: the stack CALL and RET (R28), the display buffer CLS and DRW (R31), I the
three index loads (R22), Memory FX33 and FX55 (R54), the timers FX15 and FX18 (R26, R27), the wait mode FX0A (R34). -/
def Obligations.EachPartHasItsOnlyWriters : Prop :=
  ∀ (i : Instr) (s t : State), exec i s = .next t →
    (t.stack ≠ s.stack → i = .ret ∨ ∃ nnn, i = .call nnn) ∧
    (t.fb ≠ s.fb → i = .cls ∨ ∃ x y n, i = .drw x y n) ∧
    (t.I ≠ s.I → (∃ nnn, i = .ldI nnn) ∨ (∃ x, i = .addI x) ∨ ∃ x, i = .ldF x) ∧
    (t.mem ≠ s.mem → (∃ x, i = .ldB x) ∨ ∃ x, i = .dump x) ∧
    (t.DT ≠ s.DT → ∃ x, i = .ldDtVx x) ∧
    (t.ST ≠ s.ST → ∃ x, i = .ldStVx x) ∧
    (t.wait ≠ s.wait → ∃ x, i = .ldVxK x)

/-- Keys and the dirty flag belong to the collaborators (R32, R33): no step changes a key slot, and no step clears the
dirty flag or sets it but by CLS and DRW. -/
def Obligations.StepsLeaveKeysAndNeverClearDirty : Prop :=
  (∀ s t : State, step s = .next t → t.key = s.key ∧ (s.dirty = true → t.dirty = true)) ∧
  (∀ (i : Instr) (s t : State), exec i s = .next t → t.dirty ≠ s.dirty → i = .cls ∨ ∃ x y n, i = .drw x y n)

/-- VF is written as a flag by the six instructions of R38 only; any other change of VF is by an instruction whose
destination VF is (X = 15). -/
def Obligations.VfChangesOnlyAsFlagOrDestination : Prop :=
  ∀ (i : Instr) (s t : State), exec i s = .next t → t.reg 15 ≠ s.reg 15 →
    (∃ x y, i = .addReg x y ∨ i = .subReg x y ∨ i = .subn x y ∨ i = .shr x y ∨ i = .shl x y) ∨
    (∃ x y n, i = .drw x y n) ∨
    (∃ nn, i = .ldImm 15 nn ∨ i = .addImm 15 nn ∨ i = .rnd 15 nn) ∨
    (∃ y, i = .ldReg 15 y ∨ i = .orReg 15 y ∨ i = .andReg 15 y ∨ i = .xorReg 15 y) ∨
    i = .ldVxDt 15 ∨ i = .load 15

/-- How each instruction leaves the pc (R24), `a = s.pc` the address it was fetched from. -/
def Obligations.PcAfterEachInstruction : Prop :=
  ∀ (i : Instr) (s t : State), s.fault = none → exec i s = .next t →
    (t.fault ≠ none → t.pc = s.pc) ∧
    (t.fault = none →
      (∃ nnn, (i = .jp nnn ∨ i = .call nnn) ∧ t.pc.toNat = nnn.toNat) ∨
      (i = .ret ∧ s.stack.getLast? = some t.pc) ∨
      (∃ nnn, i = .jpV0 nnn ∧ t.pc.toNat = nnn.toNat + (s.reg 0).toNat) ∨
      (t.pc = s.pc + 4#16 ∧
        ((∃ x nn, i = .seImm x nn ∨ i = .sneImm x nn) ∨ (∃ x y, i = .seReg x y ∨ i = .sneReg x y) ∨
         ∃ x, i = .skp x ∨ i = .sknp x)) ∨
      (t.pc = s.pc + 2#16 ∧ i ≠ .ret ∧ ∀ nnn, i ≠ .jp nnn ∧ i ≠ .call nnn ∧ i ≠ .jpV0 nnn))

/-- No instruction reads ST (R27): with another sound timer every instruction does the same to everything else. -/
def Obligations.NoInstructionReadsTheSoundTimer : Prop :=
  ∀ (i : Instr) (s t : State) (b : Byte), exec i s = .next t →
    exec i (s.setST b) = .next (if ∃ x, i = .ldStVx x then t else t.setST b)

/-! ## Arithmetic, immediate operands -/

/-- 6XNN (R110). -/
def Obligations.LdImmLoadsTheImmediate : Prop :=
  ∀ (x : Reg) (nn : Byte) (s : State), ∃ t,
    decode (encXNN 0x6#4 x nn) = .ok (.ldImm x nn) ∧ exec (.ldImm x nn) s = .next t ∧
    t.pc = s.pc + 2#16 ∧ t.reg x = nn ∧ ChangesOnly [x] [] s t

/-- 7XNN (R111): the sum modulo 256, VF not written unless it is the destination. -/
def Obligations.AddImmAddsModulo256WithoutFlag : Prop :=
  ∀ (x : Reg) (nn : Byte) (s : State), ∃ t,
    decode (encXNN 0x7#4 x nn) = .ok (.addImm x nn) ∧ exec (.addImm x nn) s = .next t ∧
    t.pc = s.pc + 2#16 ∧ (t.reg x).toNat = ((s.reg x).toNat + nn.toNat) % 256 ∧ ChangesOnly [x] [] s t

/-- CXNN (R112): a free draw AND NN. That the draw is the next of the opaque `Config.draw8`, and that the counter
`draws` advances, is the model's own form (log 4); nothing is known of the draw's value. -/
def Obligations.RndMasksAFreeDraw : Prop :=
  ∀ (x : Reg) (nn : Byte) (s : State), ∃ t,
    decode (encXNN 0xC#4 x nn) = .ok (.rnd x nn) ∧ exec (.rnd x nn) s = .next t ∧
    t.pc = s.pc + 2#16 ∧ t.reg x = Config.draw8 s.draws &&& nn ∧ t.reg x &&& ~~~nn = 0#8 ∧
    t.draws = s.draws + 1 ∧ ChangesOnly [x] [.draws] s t

/-! ## Arithmetic, register operands -/

/-- 8XY0 to 8XY3 (R120 to R123): move, OR, AND, XOR; VF is not written unless it is the destination. -/
def Obligations.MoveAndLogicWriteVxAlone : Prop :=
  ∀ (x y : Reg) (s : State),
    (decode (encXYN 0x8#4 x y 0x0#4) = .ok (.ldReg x y) ∧ ∃ t, exec (.ldReg x y) s = .next t ∧
      t.pc = s.pc + 2#16 ∧ t.reg x = s.reg y ∧ ChangesOnly [x] [] s t) ∧
    (decode (encXYN 0x8#4 x y 0x1#4) = .ok (.orReg x y) ∧ ∃ t, exec (.orReg x y) s = .next t ∧
      t.pc = s.pc + 2#16 ∧ t.reg x = (s.reg x ||| s.reg y) ∧ ChangesOnly [x] [] s t) ∧
    (decode (encXYN 0x8#4 x y 0x2#4) = .ok (.andReg x y) ∧ ∃ t, exec (.andReg x y) s = .next t ∧
      t.pc = s.pc + 2#16 ∧ t.reg x = (s.reg x &&& s.reg y) ∧ ChangesOnly [x] [] s t) ∧
    (decode (encXYN 0x8#4 x y 0x3#4) = .ok (.xorReg x y) ∧ ∃ t, exec (.xorReg x y) s = .next t ∧
      t.pc = s.pc + 2#16 ∧ t.reg x = (s.reg x ^^^ s.reg y) ∧ ChangesOnly [x] [] s t)

/-- 8XY4 (R124): VF is the carry of the 9-bit sum, Vx the sum's low 8 bits; the flag is written last, so with X = 15 the
sum is lost (R129). -/
def Obligations.AddRegWritesSumThenCarry : Prop :=
  ∀ (x y : Reg) (s : State), ∃ t,
    decode (encXYN 0x8#4 x y 0x4#4) = .ok (.addReg x y) ∧ exec (.addReg x y) s = .next t ∧
    t.pc = s.pc + 2#16 ∧
    (x ≠ 15 → (t.reg x).toNat = ((s.reg x).toNat + (s.reg y).toNat) % 256) ∧
    (t.reg 15).toNat = (if 255 < (s.reg x).toNat + (s.reg y).toNat then 1 else 0) ∧
    ChangesOnly [x, 15] [] s t

/-- 8XY5 (R125): minuend Vx, subtrahend Vy; VF = 0 iff a borrow occurred, written last. -/
def Obligations.SubRegWritesDifferenceThenNoBorrow : Prop :=
  ∀ (x y : Reg) (s : State), ∃ t,
    decode (encXYN 0x8#4 x y 0x5#4) = .ok (.subReg x y) ∧ exec (.subReg x y) s = .next t ∧
    t.pc = s.pc + 2#16 ∧
    (x ≠ 15 → ((t.reg x).toNat : Int) = ((s.reg x).toNat - (s.reg y).toNat : Int) % 256) ∧
    (t.reg 15).toNat = (if (s.reg x).toNat < (s.reg y).toNat then 0 else 1) ∧
    ChangesOnly [x, 15] [] s t

/-- 8XY7 (R127): minuend Vy, subtrahend Vx; VF = 0 iff a borrow occurred, written last. -/
def Obligations.SubnWritesReversedDifferenceThenNoBorrow : Prop :=
  ∀ (x y : Reg) (s : State), ∃ t,
    decode (encXYN 0x8#4 x y 0x7#4) = .ok (.subn x y) ∧ exec (.subn x y) s = .next t ∧
    t.pc = s.pc + 2#16 ∧
    (x ≠ 15 → ((t.reg x).toNat : Int) = ((s.reg y).toNat - (s.reg x).toNat : Int) % 256) ∧
    (t.reg 15).toNat = (if (s.reg y).toNat < (s.reg x).toNat then 0 else 1) ∧
    ChangesOnly [x, 15] [] s t

/-- 8XY6 (R126): Vx halved in place, VF its old bit 0, written last; Y is ignored. -/
def Obligations.ShrHalvesVxAndKeepsTheBitShiftedOut : Prop :=
  ∀ (x y : Reg) (s : State), ∃ t,
    decode (encXYN 0x8#4 x y 0x6#4) = .ok (.shr x y) ∧ exec (.shr x y) s = .next t ∧
    t.pc = s.pc + 2#16 ∧
    (x ≠ 15 → (t.reg x).toNat = (s.reg x).toNat / 2) ∧
    (t.reg 15).toNat = (s.reg x).toNat % 2 ∧
    ChangesOnly [x, 15] [] s t

/-- 8XYE (R128): Vx doubled in place modulo 256, VF its old bit 7, written last; Y is ignored. -/
def Obligations.ShlDoublesVxAndKeepsTheBitShiftedOut : Prop :=
  ∀ (x y : Reg) (s : State), ∃ t,
    decode (encXYN 0x8#4 x y 0xE#4) = .ok (.shl x y) ∧ exec (.shl x y) s = .next t ∧
    t.pc = s.pc + 2#16 ∧
    (x ≠ 15 → (t.reg x).toNat = 2 * (s.reg x).toNat % 256) ∧
    (t.reg 15).toNat = (s.reg x).toNat / 128 ∧
    ChangesOnly [x, 15] [] s t

/-! ## Control flow -/

/-- 1NNN (R140). -/
def Obligations.JpSetsThePc : Prop :=
  ∀ (nnn : Addr) (s : State), ∃ t,
    decode (encNNN 0x1#4 nnn) = .ok (.jp nnn) ∧ exec (.jp nnn) s = .next t ∧
    t.pc.toNat = nnn.toNat ∧ ChangesOnly [] [] s t

/-- 2NNN (R141): pushes the advanced pc and jumps while the stack holds fewer than 16 entries; else StackOverflowError
with the address of the CALL, nothing else changed. -/
def Obligations.CallPushesTheReturnAddressOrOverflows : Prop :=
  ∀ (nnn : Addr) (s : State),
    decode (encNNN 0x2#4 nnn) = .ok (.call nnn) ∧
    (s.stack.length < 16 → ∃ t, exec (.call nnn) s = .next t ∧ t.stack = s.stack ++ [s.pc + 2#16] ∧
      t.pc.toNat = nnn.toNat ∧ ChangesOnly [] [.stack] s t) ∧
    (16 ≤ s.stack.length → Raises (.stackOverflowError s.pc) (.call nnn) s)

/-- 00EE (R142): pops the last entry into the pc; on an empty stack StackUnderflowError with the address of the RET, nothing
else changed. -/
def Obligations.RetPopsThePcOrUnderflows : Prop :=
  ∀ s : State,
    decode 0x00EE#16 = .ok .ret ∧
    (∀ (st : List Word) (v : Word), s.stack = st ++ [v] → ∃ t, exec .ret s = .next t ∧ t.pc = v ∧ t.stack = st ∧
      ChangesOnly [] [.stack] s t) ∧
    (s.stack = [] → Raises (.stackUnderflowError s.pc) .ret s)

/-- BNNN (R143): the pc is NNN + V0, not reduced modulo 4096, whatever `op[11:8]` is. -/
def Obligations.JpV0AddsV0 : Prop :=
  ∀ (nnn : Addr) (s : State), ∃ t,
    decode (encNNN 0xB#4 nnn) = .ok (.jpV0 nnn) ∧ exec (.jpV0 nnn) s = .next t ∧
    t.pc.toNat = nnn.toNat + (s.reg 0).toNat ∧ ChangesOnly [] [] s t

/-- 3XNN, 4XNN, 5XY0, 9XY0 (R144 to R147): skip one instruction exactly when the condition holds, and write nothing. -/
def Obligations.RegisterSkipsFollowTheirCondition : Prop :=
  ∀ (x y : Reg) (nn : Byte) (s : State),
    (decode (encXNN 0x3#4 x nn) = .ok (.seImm x nn) ∧ SkipsWhen (s.reg x = nn) (.seImm x nn) s) ∧
    (decode (encXNN 0x4#4 x nn) = .ok (.sneImm x nn) ∧ SkipsWhen (s.reg x ≠ nn) (.sneImm x nn) s) ∧
    (decode (encXYN 0x5#4 x y 0x0#4) = .ok (.seReg x y) ∧ SkipsWhen (s.reg x = s.reg y) (.seReg x y) s) ∧
    (decode (encXYN 0x9#4 x y 0x0#4) = .ok (.sneReg x y) ∧ SkipsWhen (s.reg x ≠ s.reg y) (.sneReg x y) s)

/-! ## Memory and index -/

/-- ANNN (R160). -/
def Obligations.LdILoadsTheAddress : Prop :=
  ∀ (nnn : Addr) (s : State), ∃ t,
    decode (encNNN 0xA#4 nnn) = .ok (.ldI nnn) ∧ exec (.ldI nnn) s = .next t ∧
    t.pc = s.pc + 2#16 ∧ t.I.toNat = nnn.toNat ∧ ChangesOnly [] [.I] s t

/-- FX1E (R161): modulo 65536, VF not written. -/
def Obligations.AddIAddsModulo65536WithoutFlag : Prop :=
  ∀ (x : Reg) (s : State), ∃ t,
    decode (encXNN 0xF#4 x 0x1E#8) = .ok (.addI x) ∧ exec (.addI x) s = .next t ∧
    t.pc = s.pc + 2#16 ∧ t.I.toNat = (s.I.toNat + (s.reg x).toNat) % 65536 ∧ ChangesOnly [] [.I] s t

/-- FX29 (R162, R163): points I at the glyph of a digit 0 to 15, and is refused above; the statement holds for every
FONT_BASE the spec allows. -/
def Obligations.LdFPointsIAtTheGlyph : Prop :=
  ∀ (x : Reg) (s : State),
    decode (encXNN 0xF#4 x 0x29#8) = .ok (.ldF x) ∧
    ((s.reg x).toNat ≤ 15 → ∃ t, exec (.ldF x) s = .next t ∧ t.pc = s.pc + 2#16 ∧
      t.I.toNat = Config.fontBase.val + 5 * (s.reg x).toNat ∧ ChangesOnly [] [.I] s t) ∧
    (15 < (s.reg x).toNat → exec (.ldF x) s = .refused (.fontDigitOutOfRange (s.reg x)))

/-! ## Display -/

/-- 00E0 (R171): every pixel 0, dirty set even if the buffer was clear. -/
def Obligations.ClsClearsAndMarksDirty : Prop :=
  ∀ s : State, ∃ t,
    decode 0x00E0#16 = .ok .cls ∧ exec .cls s = .next t ∧ t.pc = s.pc + 2#16 ∧
    (∀ px py, pixel t.fb px py = false) ∧ t.dirty = true ∧ ChangesOnly [] [.fb, .dirty] s t

/-- DXYN (R172, R173). For a sprite that lies in memory exactly the pixels the sprite covers flip, with wraparound in both
axes; VF = 1 iff some pixel went from 1 to 0, else 0; dirty is set iff a pixel flipped, or, for a draw of at least one
row, where the implementation sets it on every draw (R175, log 5). For a sprite that leaves memory MemoryBoundsError
with the lowest address out of range, nothing drawn and VF unchanged (R64). -/
def Obligations.DrwFlipsTheCoveredPixels : Prop :=
  ∀ (x y : Reg) (n : Nat) (s : State), n < 16 →
    decode (encXYN 0xD#4 x y (BitVec.ofNat 4 n)) = .ok (.drw x y n) ∧
    ((n = 0 ∨ s.I.toNat + n ≤ 4096) → ∃ t,
      exec (.drw x y n) s = .next t ∧ t.pc = s.pc + 2#16 ∧
      (∀ px py, pixel t.fb px py ≠ pixel s.fb px py ↔
        SpriteCovers s (s.reg x).toNat (s.reg y).toNat n px py) ∧
      ((∃ px py, pixel s.fb px py = true ∧ pixel t.fb px py = false) → t.reg 15 = 1#8) ∧
      ((¬ ∃ px py, pixel s.fb px py = true ∧ pixel t.fb px py = false) → t.reg 15 = 0#8) ∧
      (t.dirty = true ↔ s.dirty = true ∨ (∃ px py, pixel t.fb px py ≠ pixel s.fb px py) ∨
        (n ≠ 0 ∧ Config.dirtyAlwaysOnDraw = true)) ∧
      ChangesOnly [15] [.fb, .dirty] s t) ∧
    (n ≠ 0 → 4096 < s.I.toNat + n → Raises (.memoryBoundsError (max s.I.toNat 4096)) (.drw x y n) s)

/-- Drawing the same sprite twice at the same coordinates restores the buffer (R174 a), and the second draw reports VF = 1
iff some 1 bit of the sprite lands on a pixel the first draw left set; a draw at x0 = 63 continues at column 0
(R174 b). The premises on Vx and Vy say that the coordinates are the same for the second draw: VF may be one of them. -/
def Obligations.DrawingTwiceRestoresTheBuffer : Prop :=
  ∀ (x y : Reg) (n : Nat) (s t : State), n < 16 → (n = 0 ∨ s.I.toNat + n ≤ 4096) →
    exec (.drw x y n) s = .next t → t.reg x = s.reg x → t.reg y = s.reg y →
    (∃ u, exec (.drw x y n) t = .next u ∧ u.fb = s.fb ∧
      (u.reg 15 = 1#8 ↔ ∃ px py, SpriteCovers s (s.reg x).toNat (s.reg y).toNat n px py ∧ pixel t.fb px py = true)) ∧
    ((s.reg x).toNat = 63 → n ≠ 0 → (Memory.read s.mem s.I.toNat).getLsbD 6 = true →
      ∀ py : Fin 32, py.val = (s.reg y).toNat % 32 → pixel t.fb 0 py ≠ pixel s.fb 0 py)

/-! ## Input -/

/-- EX9E and EXA1 (R180, R181, R185): skip on a pressed or a released key for an index 0 to 15, refused above. -/
def Obligations.KeySkipsFollowTheKeyState : Prop :=
  ∀ (x : Reg) (s : State),
    decode (encXNN 0xE#4 x 0x9E#8) = .ok (.skp x) ∧ decode (encXNN 0xE#4 x 0xA1#8) = .ok (.sknp x) ∧
    (∀ k : Fin 16, (s.reg x).toNat = k.val →
      SkipsWhen (s.key.get k = true) (.skp x) s ∧ SkipsWhen (s.key.get k = false) (.sknp x) s) ∧
    (15 < (s.reg x).toNat →
      exec (.skp x) s = .refused (.keyIndexOutOfRange (s.reg x)) ∧
      exec (.sknp x) s = .refused (.keyIndexOutOfRange (s.reg x)))

/-- FX0A (R182): enters the wait for Vx whatever the keys are, the pc advanced once, Vx unchanged. -/
def Obligations.LdVxKEntersTheWait : Prop :=
  ∀ (x : Reg) (s : State), ∃ t,
    decode (encXNN 0xF#4 x 0x0A#8) = .ok (.ldVxK x) ∧ exec (.ldVxK x) s = .next t ∧
    t.pc = s.pc + 2#16 ∧ t.wait = some x ∧ ChangesOnly [] [.wait] s t

/-! ## Timers -/

/-- FX07, FX15, FX18 (R190 to R192). -/
def Obligations.TimerLoadsMoveOneByte : Prop :=
  ∀ (x : Reg) (s : State),
    (decode (encXNN 0xF#4 x 0x07#8) = .ok (.ldVxDt x) ∧ ∃ t, exec (.ldVxDt x) s = .next t ∧
      t.pc = s.pc + 2#16 ∧ t.reg x = s.DT ∧ ChangesOnly [x] [] s t) ∧
    (decode (encXNN 0xF#4 x 0x15#8) = .ok (.ldDtVx x) ∧ ∃ t, exec (.ldDtVx x) s = .next t ∧
      t.pc = s.pc + 2#16 ∧ t.DT = s.reg x ∧ ChangesOnly [] [.DT] s t) ∧
    (decode (encXNN 0xF#4 x 0x18#8) = .ok (.ldStVx x) ∧ ∃ t, exec (.ldStVx x) s = .next t ∧
      t.pc = s.pc + 2#16 ∧ t.ST = s.reg x ∧ ChangesOnly [] [.ST] s t)

/-! ## BCD and register dump -/

/-- FX33 (R200): the three decimal digits, most significant first, at I, I+1, I+2, every other byte as before; or
MemoryBoundsError with nothing written. The canonical form of memory is an invariant (EveryStepKeepsTheInvariant). -/
def Obligations.LdBStoresThreeDigits : Prop :=
  ∀ (x : Reg) (s : State), Memory.wf s.mem = true →
    decode (encXNN 0xF#4 x 0x33#8) = .ok (.ldB x) ∧
    (s.I.toNat + 2 < 4096 → ∃ t, exec (.ldB x) s = .next t ∧ t.pc = s.pc + 2#16 ∧
      (Memory.read t.mem s.I.toNat).toNat = (s.reg x).toNat / 100 ∧
      (Memory.read t.mem (s.I.toNat + 1)).toNat = (s.reg x).toNat / 10 % 10 ∧
      (Memory.read t.mem (s.I.toNat + 2)).toNat = (s.reg x).toNat % 10 ∧
      (∀ a, ¬ (s.I.toNat ≤ a ∧ a < s.I.toNat + 3) → Memory.read t.mem a = Memory.read s.mem a) ∧
      ChangesOnly [] [.mem] s t) ∧
    (4096 ≤ s.I.toNat + 2 → Raises (.memoryBoundsError (max s.I.toNat 4096)) (.ldB x) s)

/-- FX55 (R201): V0 to VX at I upward in ascending order, I unchanged, every other byte as before; or MemoryBoundsError with
nothing written. -/
def Obligations.DumpStoresV0ToVx : Prop :=
  ∀ (x : Reg) (s : State), Memory.wf s.mem = true →
    decode (encXNN 0xF#4 x 0x55#8) = .ok (.dump x) ∧
    (s.I.toNat + x.val < 4096 → ∃ t, exec (.dump x) s = .next t ∧ t.pc = s.pc + 2#16 ∧
      (∀ k : Reg, k ≤ x → Memory.read t.mem (s.I.toNat + k.val) = s.reg k) ∧
      (∀ a, ¬ (s.I.toNat ≤ a ∧ a < s.I.toNat + (x.val + 1)) → Memory.read t.mem a = Memory.read s.mem a) ∧
      ChangesOnly [] [.mem] s t) ∧
    (4096 ≤ s.I.toNat + x.val → Raises (.memoryBoundsError (max s.I.toNat 4096)) (.dump x) s)

/-- FX65 (R202): V0 to VX from I upward, the registers above VX and I unchanged; or MemoryBoundsError with no register
written. -/
def Obligations.LoadFillsV0ToVx : Prop :=
  ∀ (x : Reg) (s : State),
    decode (encXNN 0xF#4 x 0x65#8) = .ok (.load x) ∧
    (s.I.toNat + x.val < 4096 → ∃ t, exec (.load x) s = .next t ∧ t.pc = s.pc + 2#16 ∧
      (∀ k : Reg, k ≤ x → t.reg k = Memory.read s.mem (s.I.toNat + k.val)) ∧
      (∀ k : Reg, x < k → t.reg k = s.reg k) ∧
      ChangesOnly ((List.finRange 16).filter (fun k => k ≤ x)) [] s t) ∧
    (4096 ≤ s.I.toNat + x.val → Raises (.memoryBoundsError (max s.I.toNat 4096)) (.load x) s)

/-- A store is seen by the very next fetch (R61): after a register dump onto the next instruction, the next step runs the
word just stored. -/
def Obligations.NextFetchSeesTheStoredWord : Prop :=
  ∀ (x : Reg) (s t : State) (i : Instr), Memory.wf s.mem = true → Fetching s → 1 ≤ x.val →
    s.I = s.pc + 2#16 → s.I.toNat + x.val < 4096 → exec (.dump x) s = .next t →
    decode (BitVec.ofNat 16 (256 * (s.reg 0).toNat + (s.reg 1).toNat)) = .ok i → step t = exec i t

/-! ## Reset and the collaborators -/

/-- The reset values of R37 (the values R37 marks decided are the spec's D19, log 6), Memory with no ROM loaded;
the font's place and bytes are the spec's D14 and D15 (logs 2 and 16). -/
def Obligations.ResetValuesAreTheSpecs : Prop :=
  (∀ k, State.reset.reg k = 0#8) ∧ State.reset.I = 0#16 ∧ State.reset.DT = 0#8 ∧ State.reset.ST = 0#8 ∧
  State.reset.pc = 0x200#16 ∧ State.reset.stack = [] ∧ (∀ px py, pixel State.reset.fb px py = false) ∧
  State.reset.dirty = false ∧ (∀ k, State.reset.key.get k = false) ∧ State.reset.wait = none ∧
  State.reset.fault = none ∧
  (∀ j (h : j < fontData.length), Memory.read State.reset.mem (Config.fontBase.val + j) = fontData[j]) ∧
  (∀ a, ¬ (Config.fontBase.val ≤ a ∧ a < Config.fontBase.val + 80) → Memory.read State.reset.mem a = 0x00#8)

/-- `init(rom)` (R57, R242): the font at FONT_BASE, the ROM at 0x200, 0 elsewhere, everything else as at reset; an image
longer than 3584 bytes is refused. The fill, the font's place and its bytes are the spec's D19, D14 and D15 (logs 2, 6, 16). -/
def Obligations.InitInstallsFontAndRom : Prop :=
  ∀ rom : List Byte,
    (rom.length ≤ 3584 → ∃ t, initCore rom = .next t ∧ t = State.reset.setMem t.mem ∧
      (∀ j (h : j < rom.length), Memory.read t.mem (0x200 + j) = rom[j]) ∧
      (∀ j (h : j < fontData.length), Memory.read t.mem (Config.fontBase.val + j) = fontData[j]) ∧
      (∀ a, ¬ (Config.fontBase.val ≤ a ∧ a < Config.fontBase.val + 80) → ¬ (0x200 ≤ a ∧ a < 0x200 + rom.length) →
        Memory.read t.mem a = 0x00#8)) ∧
    (3584 < rom.length → initCore rom = .refused (.romTooLong rom.length))

/-- `tick_timers()` (R222): on a live session both timers go down by one unless zero, independently and whatever the wait
mode, and nothing else changes, so that n ticks take each timer down by n, never below zero; on a dead session a tick
changes nothing. -/
def Obligations.TicksCountDownToZero : Prop :=
  ∀ s : State,
    (s.fault = none → ∀ n : Nat,
      (tickTimers^[n] s).DT.toNat = s.DT.toNat - n ∧ (tickTimers^[n] s).ST.toNat = s.ST.toNat - n ∧
      (tickTimers^[n] s).pc = s.pc ∧ ChangesOnly [] [.DT, .ST] s (tickTimers^[n] s)) ∧
    (s.fault ≠ none → tickTimers s = s)

/-- The input, rendering and audio collaborators (R224 to R227): each transaction writes its own field and nothing else,
and the two reads return what R225 and R227 say. -/
def Obligations.CollaboratorsTouchOnlyTheirField : Prop :=
  ∀ (s : State) (k : Fin 16) (p : Bool),
    ((setKeyStatus k p s).key.get k = p ∧ (∀ j, j ≠ k → (setKeyStatus k p s).key.get j = s.key.get j) ∧
      (setKeyStatus k p s).pc = s.pc ∧ ChangesOnly [] [.key] s (setKeyStatus k p s)) ∧
    ((consumeDirty s).1 = s.dirty ∧ (consumeDirty s).2.dirty = false ∧ (consumeDirty s).2.pc = s.pc ∧
      ChangesOnly [] [.dirty] s (consumeDirty s).2) ∧
    renderRead s = (s.fb, s.dirty) ∧ (soundActive s = true ↔ s.ST ≠ 0#8)
end

