-- ==== Sys2Proof/Laws/Decode.lean ====
section
/-! SUPPORT. The fields of each encoding format, and each format put together again from a word's fields. -/

namespace Sys2Proof

@[simp] theorem highNibble_encNNN (hn : BitVec 4) (nnn : Addr) : highNibble (encNNN hn nnn) = hn :=
  BitVec.extractLsb'_append_eq_left

@[simp] theorem fieldNNN_encNNN (hn : BitVec 4) (nnn : Addr) : fieldNNN (encNNN hn nnn) = nnn :=
  BitVec.extractLsb'_append_eq_right

@[simp] theorem highNibble_encXNN (hn : BitVec 4) (x : Reg) (nn : Byte) : highNibble (encXNN hn x nn) = hn :=
  BitVec.extractLsb'_append_eq_left

@[simp] theorem fieldX_encXNN (hn : BitVec 4) (x : Reg) (nn : Byte) : fieldX (encXNN hn x nn) = x :=
  congrArg BitVec.toFin ((BitVec.extractLsb'_append_eq_of_add_le (by decide)).trans
    (BitVec.extractLsb'_append_eq_left (a := regField x) (b := nn)))

@[simp] theorem fieldNN_encXNN (hn : BitVec 4) (x : Reg) (nn : Byte) : fieldNN (encXNN hn x nn) = nn :=
  (BitVec.extractLsb'_append_eq_of_add_le (by decide)).trans BitVec.extractLsb'_append_eq_right

@[simp] theorem highNibble_encXYN (hn : BitVec 4) (x y : Reg) (n : BitVec 4) : highNibble (encXYN hn x y n) = hn :=
  BitVec.extractLsb'_append_eq_left

@[simp] theorem fieldX_encXYN (hn : BitVec 4) (x y : Reg) (n : BitVec 4) : fieldX (encXYN hn x y n) = x :=
  congrArg BitVec.toFin ((BitVec.extractLsb'_append_eq_of_add_le (by decide)).trans
    (BitVec.extractLsb'_append_eq_left (a := regField x) (b := regField y ++ n)))

@[simp] theorem fieldY_encXYN (hn : BitVec 4) (x y : Reg) (n : BitVec 4) : fieldY (encXYN hn x y n) = y :=
  congrArg BitVec.toFin ((BitVec.extractLsb'_append_eq_of_add_le (by decide)).trans
    ((BitVec.extractLsb'_append_eq_of_add_le (xhi := regField x) (xlo := regField y ++ n) (by decide)).trans
      (BitVec.extractLsb'_append_eq_left (a := regField y) (b := n))))

@[simp] theorem fieldN_encXYN (hn : BitVec 4) (x y : Reg) (n : BitVec 4) : fieldN (encXYN hn x y n) = n :=
  (BitVec.extractLsb'_append_eq_of_add_le (by decide)).trans
    ((BitVec.extractLsb'_append_eq_of_add_le (xhi := regField x) (xlo := regField y ++ n) (by decide)).trans
      BitVec.extractLsb'_append_eq_right)

theorem encNNN_fields (op : Word) : encNNN (highNibble op) (fieldNNN op) = op :=
  (BitVec.extractLsb'_append_extractLsb'_eq_extractLsb' rfl).trans BitVec.extractLsb'_eq_self

theorem encXNN_fields (op : Word) : encXNN (highNibble op) (fieldX op) (fieldNN op) = op :=
  (congrArg (fun r : BitVec 12 => highNibble op ++ r)
    (BitVec.extractLsb'_append_extractLsb'_eq_extractLsb' (start₁ := 0) (len₁ := 8) (start₂ := 8) (len₂ := 4)
      (x := op) rfl)).trans (encNNN_fields op)

theorem encXYN_fields (op : Word) : encXYN (highNibble op) (fieldX op) (fieldY op) (fieldN op) = op :=
  (congrArg (fun r : BitVec 8 => (highNibble op ++ (regField (fieldX op) ++ r) : BitVec (4 + (4 + 8))))
    (BitVec.extractLsb'_append_extractLsb'_eq_extractLsb' (start₁ := 0) (len₁ := 4) (start₂ := 4) (len₂ := 4)
      (x := op) rfl)).trans (encXNN_fields op)

@[simp] theorem hiByte_opcodeOf (b0 b1 : Byte) : hiByte (opcodeOf b0 b1) = b0 := BitVec.extractLsb'_append_eq_left

@[simp] theorem loByte_opcodeOf (b0 b1 : Byte) : loByte (opcodeOf b0 b1) = b1 := BitVec.extractLsb'_append_eq_right

@[simp] theorem opcodeOf_bytes (op : Word) : opcodeOf (hiByte op) (loByte op) = op :=
  (BitVec.extractLsb'_append_extractLsb'_eq_extractLsb' rfl).trans BitVec.extractLsb'_eq_self

/-- The big-endian word as a number (20_memory.md R50). -/
theorem opcodeOf_eq (b0 b1 : Byte) : opcodeOf b0 b1 = BitVec.ofNat 16 (256 * b0.toNat + b1.toNat) := by
  apply BitVec.eq_of_toNat_eq
  have h0 := b0.isLt
  have h1 := b1.isLt
  rw [show (opcodeOf b0 b1).toNat = b0.toNat <<< 8 ||| b1.toNat from BitVec.toNat_append .., BitVec.toNat_ofNat,
    ← Nat.shiftLeft_add_eq_or_of_lt h1, Nat.shiftLeft_eq]
  omega


end Sys2Proof
end

