-- ==== Sys2Proof/Laws/Memory.lean ====
section
/-! SUPPORT. What the memory operations do: a read after a write, the canonical form, bounds, and the two range
operations with the error they raise. -/

namespace Sys2Proof.Machine

/-! The canonical form -/

theorem wfFrom_nil (lo : Nat) : Memory.wfFrom lo [] = true := rfl

theorem wfFrom_cons (lo a : Nat) (v : Byte) (m : Memory) :
    Memory.wfFrom lo ((a, v) :: m) = true ↔
      lo ≤ a ∧ a < 4096 ∧ v ≠ resetByte a ∧ Memory.wfFrom (a + 1) m = true := by
  simp [Memory.wfFrom, and_assoc]

/-- A form from `lo` on is a form from any lower bound on. -/
theorem wfFrom_mono {lo lo' : Nat} (h : lo' ≤ lo) {m : Memory} (hm : Memory.wfFrom lo m = true) :
    Memory.wfFrom lo' m = true := by
  cases m with
  | nil => rfl
  | cons c m =>
    obtain ⟨a, v⟩ := c
    rw [wfFrom_cons] at hm ⊢
    exact ⟨h.trans hm.1, hm.2⟩

theorem wfFrom_consCell {lo a : Nat} {v : Byte} {m : Memory} (h : lo ≤ a) (ha : a < 4096)
    (hm : Memory.wfFrom (a + 1) m = true) : Memory.wfFrom lo (Memory.consCell a v m) = true := by
  unfold Memory.consCell
  split
  · exact wfFrom_mono (by omega) hm
  · rw [wfFrom_cons]
    exact ⟨h, ha, ‹_›, hm⟩

theorem wfFrom_write {lo a : Nat} {v : Byte} {m : Memory} (h : lo ≤ a) (ha : a < 4096)
    (hm : Memory.wfFrom lo m = true) : Memory.wfFrom lo (Memory.write m a v) = true := by
  induction m generalizing lo with
  | nil => exact wfFrom_consCell h ha rfl
  | cons c m ih =>
    obtain ⟨b, w⟩ := c
    rw [wfFrom_cons] at hm
    simp only [Memory.write]
    split
    · exact wfFrom_consCell h ha (by rw [wfFrom_cons]; exact ⟨by omega, hm.2⟩)
    · split
      · subst_vars
        exact wfFrom_consCell hm.1 ha hm.2.2.2
      · rw [wfFrom_cons]
        exact ⟨hm.1, hm.2.1, hm.2.2.1, ih (by omega) hm.2.2.2⟩

/-- A store inside the address space keeps the canonical form. -/
theorem wf_write {m : Memory} {a : Nat} (v : Byte) (ha : a < 4096) (hm : Memory.wf m = true) :
    Memory.wf (Memory.write m a v) = true := wfFrom_write (Nat.zero_le a) ha hm

theorem wf_nil : Memory.wf [] = true := rfl

/-! Reading after writing -/

/-- Below its first cell a memory reads as at reset. -/
theorem read_of_wfFrom {lo a : Nat} {m : Memory} (hm : Memory.wfFrom lo m = true) (h : a < lo) :
    Memory.read m a = resetByte a := by
  induction m generalizing lo with
  | nil => rfl
  | cons c m ih =>
    obtain ⟨b, w⟩ := c
    rw [wfFrom_cons] at hm
    rw [Memory.read, if_neg (by omega)]
    exact ih hm.2.2.2 (by omega)

theorem read_consCell_ne {a c : Nat} (v : Byte) (m : Memory) (h : c ≠ a) :
    Memory.read (Memory.consCell a v m) c = Memory.read m c := by
  unfold Memory.consCell
  split
  · rfl
  · rw [Memory.read, if_neg h]

theorem read_consCell_same {a : Nat} {v : Byte} {m : Memory} (hm : Memory.wfFrom (a + 1) m = true) :
    Memory.read (Memory.consCell a v m) a = v := by
  unfold Memory.consCell
  split
  · rw [read_of_wfFrom hm (by omega), ‹v = _›]
  · rw [Memory.read, if_pos rfl]

/-- A write leaves every other address alone, in every memory. -/
theorem read_write_ne (m : Memory) {a c : Nat} (v : Byte) (h : c ≠ a) :
    Memory.read (Memory.write m a v) c = Memory.read m c := by
  induction m with
  | nil => exact read_consCell_ne v [] h
  | cons x m ih =>
    obtain ⟨b, w⟩ := x
    simp only [Memory.write]
    split
    · exact read_consCell_ne v _ h
    · split
      · subst_vars
        rw [read_consCell_ne v _ h, Memory.read, if_neg h]
      · simp only [Memory.read, ih]

theorem read_wfFrom_write_same {lo a : Nat} {m : Memory} (v : Byte) (hm : Memory.wfFrom lo m = true) :
    Memory.read (Memory.write m a v) a = v := by
  induction m generalizing lo with
  | nil => exact read_consCell_same rfl
  | cons x m ih =>
    obtain ⟨b, w⟩ := x
    rw [wfFrom_cons] at hm
    simp only [Memory.write]
    split
    · exact read_consCell_same (by rw [wfFrom_cons]; exact ⟨by omega, hm.2⟩)
    · split
      · subst_vars
        exact read_consCell_same hm.2.2.2
      · rw [Memory.read, if_neg ‹_›]
        exact ih hm.2.2.2

/-- A read after a write to the same address gives the byte written. -/
theorem read_write_same {m : Memory} (a : Nat) (v : Byte) (hm : Memory.wf m = true) :
    Memory.read (Memory.write m a v) a = v := read_wfFrom_write_same v hm

/-! Bounds -/

/-- `MemRead` is a read inside the address space and MemoryBoundsError outside it. -/
theorem memRead_eq (m : Memory) (a : Nat) :
    memRead m a = if a < 4096 then .ok (Memory.read m a) else .error (.memoryBoundsError a) := rfl

/-- `MemWrite` is a write inside the address space and MemoryBoundsError outside it. -/
theorem memWrite_eq (m : Memory) (a : Nat) (v : Byte) :
    memWrite m a v = if a < 4096 then .ok (Memory.write m a v) else .error (.memoryBoundsError a) := rfl

/-! Ranges -/

/-- A range inside the address space is read byte by byte. -/
theorem readRange_ok (m : Memory) {base n : Nat} (h : n = 0 ∨ base + n ≤ 4096) :
    readRange m base n = .ok ((List.range n).map (fun k => Memory.read m (base + k))) := by
  induction n generalizing base with
  | zero => rfl
  | succ n ih =>
    have ih' := ih (base := base + 1) (by omega)
    simp only [readRange, memRead_eq, if_pos (show base < 4096 by omega), ih', List.range_succ_eq_map,
      List.map_cons, List.map_map, Nat.add_zero]
    congr 2
    apply List.map_congr_left
    intro k _
    simp [Nat.add_comm 1, Nat.add_assoc]

/-- A range that leaves the address space raises with its lowest out-of-range address. -/
theorem readRange_error (m : Memory) {base n : Nat} (h0 : n ≠ 0) (h : 4096 < base + n) :
    readRange m base n = .error (.memoryBoundsError (max base 4096)) := by
  induction n generalizing base with
  | zero => exact absurd rfl h0
  | succ n ih =>
    rw [readRange, memRead_eq]
    by_cases hb : base < 4096
    · rw [if_pos hb, ih (base := base + 1) (by omega) (by omega), max_eq_right (by omega), max_eq_right (by omega)]
    · rw [if_neg hb, max_eq_left (by omega)]

theorem writeRange_cons {m : Memory} {base : Nat} (b : Byte) (bs : List Byte) (h : base < 4096) :
    writeRange m base (b :: bs) = writeRange (Memory.write m base b) (base + 1) bs := by
  rw [writeRange, memWrite_eq, if_pos h]

/-- What storing a range does, when it lies inside the address space: it succeeds, the canonical form is kept, every
other address reads as before, and in a canonical memory every stored address reads as the byte stored there. -/
theorem writeRange_ok (m : Memory) {base : Nat} (bs : List Byte) (h : bs = [] ∨ base + bs.length ≤ 4096) :
    ∃ m', writeRange m base bs = .ok m' ∧ (Memory.wf m = true → Memory.wf m' = true) ∧
      (∀ a, ¬ (base ≤ a ∧ a < base + bs.length) → Memory.read m' a = Memory.read m a) ∧
      (Memory.wf m = true → ∀ k (hk : k < bs.length), Memory.read m' (base + k) = bs[k]) := by
  induction bs generalizing m base with
  | nil => exact ⟨m, rfl, id, fun _ _ => rfl, fun _ k hk => absurd hk (Nat.not_lt_zero k)⟩
  | cons b bs ih =>
    simp only [List.length_cons, reduceCtorEq, false_or] at h
    obtain ⟨m', hw, hwf, hne, heq⟩ := ih (Memory.write m base b) (base := base + 1) (by right; omega)
    refine ⟨m', (writeRange_cons b bs (by omega)).trans hw, fun hm => hwf (wf_write b (by omega) hm), ?_, ?_⟩
    · intro a ha
      rw [List.length_cons] at ha
      rw [hne a (by omega), read_write_ne m b (by omega)]
    · intro hm k hk
      cases k with
      | zero => rw [Nat.add_zero, hne base (by omega), read_write_same base b hm, List.getElem_cons_zero]
      | succ k =>
        rw [List.getElem_cons_succ, ← heq (wf_write b (by omega) hm) k (by simpa using hk)]
        congr 1
        omega

/-- A store that leaves the address space raises with its lowest out-of-range address. -/
theorem writeRange_error (m : Memory) {base : Nat} (bs : List Byte) (h0 : bs ≠ [])
    (h : 4096 < base + bs.length) : writeRange m base bs = .error (.memoryBoundsError (max base 4096)) := by
  induction bs generalizing m base with
  | nil => exact absurd rfl h0
  | cons b bs ih =>
    rw [List.length_cons] at h
    by_cases hb : base < 4096
    · rw [writeRange_cons b bs hb, ih (Memory.write m base b) (base := base + 1) ?_ (by omega)]
      · congr 2
        omega
      · rintro rfl
        simp at h
        omega
    · rw [writeRange, memWrite_eq, if_neg hb, max_eq_left (by omega)]

end Sys2Proof.Machine
end

