-- ==== Sys2Proof/Laws/State.lean ====
section
/-! SUPPORT. One lemma per field and update of State, so that no proof unfolds a record update. -/

namespace Sys2Proof.Machine

section setV
variable (s : State) (v : Vector Byte 16)
@[simp] theorem State.setV_V : (s.setV v).V = v := rfl
@[simp] theorem State.setV_I : (s.setV v).I = s.I := rfl
@[simp] theorem State.setV_pc : (s.setV v).pc = s.pc := rfl
@[simp] theorem State.setV_DT : (s.setV v).DT = s.DT := rfl
@[simp] theorem State.setV_ST : (s.setV v).ST = s.ST := rfl
@[simp] theorem State.setV_stack : (s.setV v).stack = s.stack := rfl
@[simp] theorem State.setV_mem : (s.setV v).mem = s.mem := rfl
@[simp] theorem State.setV_fb : (s.setV v).fb = s.fb := rfl
@[simp] theorem State.setV_dirty : (s.setV v).dirty = s.dirty := rfl
@[simp] theorem State.setV_key : (s.setV v).key = s.key := rfl
@[simp] theorem State.setV_wait : (s.setV v).wait = s.wait := rfl
@[simp] theorem State.setV_fault : (s.setV v).fault = s.fault := rfl
@[simp] theorem State.setV_draws : (s.setV v).draws = s.draws := rfl
end setV

section setI
variable (s : State) (w : Word)
@[simp] theorem State.setI_V : (s.setI w).V = s.V := rfl
@[simp] theorem State.setI_I : (s.setI w).I = w := rfl
@[simp] theorem State.setI_pc : (s.setI w).pc = s.pc := rfl
@[simp] theorem State.setI_DT : (s.setI w).DT = s.DT := rfl
@[simp] theorem State.setI_ST : (s.setI w).ST = s.ST := rfl
@[simp] theorem State.setI_stack : (s.setI w).stack = s.stack := rfl
@[simp] theorem State.setI_mem : (s.setI w).mem = s.mem := rfl
@[simp] theorem State.setI_fb : (s.setI w).fb = s.fb := rfl
@[simp] theorem State.setI_dirty : (s.setI w).dirty = s.dirty := rfl
@[simp] theorem State.setI_key : (s.setI w).key = s.key := rfl
@[simp] theorem State.setI_wait : (s.setI w).wait = s.wait := rfl
@[simp] theorem State.setI_fault : (s.setI w).fault = s.fault := rfl
@[simp] theorem State.setI_draws : (s.setI w).draws = s.draws := rfl
end setI

section setPc
variable (s : State) (w : Word)
@[simp] theorem State.setPc_V : (s.setPc w).V = s.V := rfl
@[simp] theorem State.setPc_I : (s.setPc w).I = s.I := rfl
@[simp] theorem State.setPc_pc : (s.setPc w).pc = w := rfl
@[simp] theorem State.setPc_DT : (s.setPc w).DT = s.DT := rfl
@[simp] theorem State.setPc_ST : (s.setPc w).ST = s.ST := rfl
@[simp] theorem State.setPc_stack : (s.setPc w).stack = s.stack := rfl
@[simp] theorem State.setPc_mem : (s.setPc w).mem = s.mem := rfl
@[simp] theorem State.setPc_fb : (s.setPc w).fb = s.fb := rfl
@[simp] theorem State.setPc_dirty : (s.setPc w).dirty = s.dirty := rfl
@[simp] theorem State.setPc_key : (s.setPc w).key = s.key := rfl
@[simp] theorem State.setPc_wait : (s.setPc w).wait = s.wait := rfl
@[simp] theorem State.setPc_fault : (s.setPc w).fault = s.fault := rfl
@[simp] theorem State.setPc_draws : (s.setPc w).draws = s.draws := rfl
end setPc

section setDT
variable (s : State) (b : Byte)
@[simp] theorem State.setDT_V : (s.setDT b).V = s.V := rfl
@[simp] theorem State.setDT_I : (s.setDT b).I = s.I := rfl
@[simp] theorem State.setDT_pc : (s.setDT b).pc = s.pc := rfl
@[simp] theorem State.setDT_DT : (s.setDT b).DT = b := rfl
@[simp] theorem State.setDT_ST : (s.setDT b).ST = s.ST := rfl
@[simp] theorem State.setDT_stack : (s.setDT b).stack = s.stack := rfl
@[simp] theorem State.setDT_mem : (s.setDT b).mem = s.mem := rfl
@[simp] theorem State.setDT_fb : (s.setDT b).fb = s.fb := rfl
@[simp] theorem State.setDT_dirty : (s.setDT b).dirty = s.dirty := rfl
@[simp] theorem State.setDT_key : (s.setDT b).key = s.key := rfl
@[simp] theorem State.setDT_wait : (s.setDT b).wait = s.wait := rfl
@[simp] theorem State.setDT_fault : (s.setDT b).fault = s.fault := rfl
@[simp] theorem State.setDT_draws : (s.setDT b).draws = s.draws := rfl
end setDT

section setST
variable (s : State) (b : Byte)
@[simp] theorem State.setST_V : (s.setST b).V = s.V := rfl
@[simp] theorem State.setST_I : (s.setST b).I = s.I := rfl
@[simp] theorem State.setST_pc : (s.setST b).pc = s.pc := rfl
@[simp] theorem State.setST_DT : (s.setST b).DT = s.DT := rfl
@[simp] theorem State.setST_ST : (s.setST b).ST = b := rfl
@[simp] theorem State.setST_stack : (s.setST b).stack = s.stack := rfl
@[simp] theorem State.setST_mem : (s.setST b).mem = s.mem := rfl
@[simp] theorem State.setST_fb : (s.setST b).fb = s.fb := rfl
@[simp] theorem State.setST_dirty : (s.setST b).dirty = s.dirty := rfl
@[simp] theorem State.setST_key : (s.setST b).key = s.key := rfl
@[simp] theorem State.setST_wait : (s.setST b).wait = s.wait := rfl
@[simp] theorem State.setST_fault : (s.setST b).fault = s.fault := rfl
@[simp] theorem State.setST_draws : (s.setST b).draws = s.draws := rfl
end setST

section setStack
variable (s : State) (st : List Word)
@[simp] theorem State.setStack_V : (s.setStack st).V = s.V := rfl
@[simp] theorem State.setStack_I : (s.setStack st).I = s.I := rfl
@[simp] theorem State.setStack_pc : (s.setStack st).pc = s.pc := rfl
@[simp] theorem State.setStack_DT : (s.setStack st).DT = s.DT := rfl
@[simp] theorem State.setStack_ST : (s.setStack st).ST = s.ST := rfl
@[simp] theorem State.setStack_stack : (s.setStack st).stack = st := rfl
@[simp] theorem State.setStack_mem : (s.setStack st).mem = s.mem := rfl
@[simp] theorem State.setStack_fb : (s.setStack st).fb = s.fb := rfl
@[simp] theorem State.setStack_dirty : (s.setStack st).dirty = s.dirty := rfl
@[simp] theorem State.setStack_key : (s.setStack st).key = s.key := rfl
@[simp] theorem State.setStack_wait : (s.setStack st).wait = s.wait := rfl
@[simp] theorem State.setStack_fault : (s.setStack st).fault = s.fault := rfl
@[simp] theorem State.setStack_draws : (s.setStack st).draws = s.draws := rfl
end setStack

section setMem
variable (s : State) (m : Memory)
@[simp] theorem State.setMem_V : (s.setMem m).V = s.V := rfl
@[simp] theorem State.setMem_I : (s.setMem m).I = s.I := rfl
@[simp] theorem State.setMem_pc : (s.setMem m).pc = s.pc := rfl
@[simp] theorem State.setMem_DT : (s.setMem m).DT = s.DT := rfl
@[simp] theorem State.setMem_ST : (s.setMem m).ST = s.ST := rfl
@[simp] theorem State.setMem_stack : (s.setMem m).stack = s.stack := rfl
@[simp] theorem State.setMem_mem : (s.setMem m).mem = m := rfl
@[simp] theorem State.setMem_fb : (s.setMem m).fb = s.fb := rfl
@[simp] theorem State.setMem_dirty : (s.setMem m).dirty = s.dirty := rfl
@[simp] theorem State.setMem_key : (s.setMem m).key = s.key := rfl
@[simp] theorem State.setMem_wait : (s.setMem m).wait = s.wait := rfl
@[simp] theorem State.setMem_fault : (s.setMem m).fault = s.fault := rfl
@[simp] theorem State.setMem_draws : (s.setMem m).draws = s.draws := rfl
end setMem

section setFb
variable (s : State) (d : Display)
@[simp] theorem State.setFb_V : (s.setFb d).V = s.V := rfl
@[simp] theorem State.setFb_I : (s.setFb d).I = s.I := rfl
@[simp] theorem State.setFb_pc : (s.setFb d).pc = s.pc := rfl
@[simp] theorem State.setFb_DT : (s.setFb d).DT = s.DT := rfl
@[simp] theorem State.setFb_ST : (s.setFb d).ST = s.ST := rfl
@[simp] theorem State.setFb_stack : (s.setFb d).stack = s.stack := rfl
@[simp] theorem State.setFb_mem : (s.setFb d).mem = s.mem := rfl
@[simp] theorem State.setFb_fb : (s.setFb d).fb = d := rfl
@[simp] theorem State.setFb_dirty : (s.setFb d).dirty = s.dirty := rfl
@[simp] theorem State.setFb_key : (s.setFb d).key = s.key := rfl
@[simp] theorem State.setFb_wait : (s.setFb d).wait = s.wait := rfl
@[simp] theorem State.setFb_fault : (s.setFb d).fault = s.fault := rfl
@[simp] theorem State.setFb_draws : (s.setFb d).draws = s.draws := rfl
end setFb

section setDirty
variable (s : State) (b : Bool)
@[simp] theorem State.setDirty_V : (s.setDirty b).V = s.V := rfl
@[simp] theorem State.setDirty_I : (s.setDirty b).I = s.I := rfl
@[simp] theorem State.setDirty_pc : (s.setDirty b).pc = s.pc := rfl
@[simp] theorem State.setDirty_DT : (s.setDirty b).DT = s.DT := rfl
@[simp] theorem State.setDirty_ST : (s.setDirty b).ST = s.ST := rfl
@[simp] theorem State.setDirty_stack : (s.setDirty b).stack = s.stack := rfl
@[simp] theorem State.setDirty_mem : (s.setDirty b).mem = s.mem := rfl
@[simp] theorem State.setDirty_fb : (s.setDirty b).fb = s.fb := rfl
@[simp] theorem State.setDirty_dirty : (s.setDirty b).dirty = b := rfl
@[simp] theorem State.setDirty_key : (s.setDirty b).key = s.key := rfl
@[simp] theorem State.setDirty_wait : (s.setDirty b).wait = s.wait := rfl
@[simp] theorem State.setDirty_fault : (s.setDirty b).fault = s.fault := rfl
@[simp] theorem State.setDirty_draws : (s.setDirty b).draws = s.draws := rfl
end setDirty

section setKeys
variable (s : State) (ks : Keys)
@[simp] theorem State.setKeys_V : (s.setKeys ks).V = s.V := rfl
@[simp] theorem State.setKeys_I : (s.setKeys ks).I = s.I := rfl
@[simp] theorem State.setKeys_pc : (s.setKeys ks).pc = s.pc := rfl
@[simp] theorem State.setKeys_DT : (s.setKeys ks).DT = s.DT := rfl
@[simp] theorem State.setKeys_ST : (s.setKeys ks).ST = s.ST := rfl
@[simp] theorem State.setKeys_stack : (s.setKeys ks).stack = s.stack := rfl
@[simp] theorem State.setKeys_mem : (s.setKeys ks).mem = s.mem := rfl
@[simp] theorem State.setKeys_fb : (s.setKeys ks).fb = s.fb := rfl
@[simp] theorem State.setKeys_dirty : (s.setKeys ks).dirty = s.dirty := rfl
@[simp] theorem State.setKeys_key : (s.setKeys ks).key = ks := rfl
@[simp] theorem State.setKeys_wait : (s.setKeys ks).wait = s.wait := rfl
@[simp] theorem State.setKeys_fault : (s.setKeys ks).fault = s.fault := rfl
@[simp] theorem State.setKeys_draws : (s.setKeys ks).draws = s.draws := rfl
end setKeys

section setWait
variable (s : State) (w : Option Reg)
@[simp] theorem State.setWait_V : (s.setWait w).V = s.V := rfl
@[simp] theorem State.setWait_I : (s.setWait w).I = s.I := rfl
@[simp] theorem State.setWait_pc : (s.setWait w).pc = s.pc := rfl
@[simp] theorem State.setWait_DT : (s.setWait w).DT = s.DT := rfl
@[simp] theorem State.setWait_ST : (s.setWait w).ST = s.ST := rfl
@[simp] theorem State.setWait_stack : (s.setWait w).stack = s.stack := rfl
@[simp] theorem State.setWait_mem : (s.setWait w).mem = s.mem := rfl
@[simp] theorem State.setWait_fb : (s.setWait w).fb = s.fb := rfl
@[simp] theorem State.setWait_dirty : (s.setWait w).dirty = s.dirty := rfl
@[simp] theorem State.setWait_key : (s.setWait w).key = s.key := rfl
@[simp] theorem State.setWait_wait : (s.setWait w).wait = w := rfl
@[simp] theorem State.setWait_fault : (s.setWait w).fault = s.fault := rfl
@[simp] theorem State.setWait_draws : (s.setWait w).draws = s.draws := rfl
end setWait

section setFault
variable (s : State) (f : Option Fault)
@[simp] theorem State.setFault_V : (s.setFault f).V = s.V := rfl
@[simp] theorem State.setFault_I : (s.setFault f).I = s.I := rfl
@[simp] theorem State.setFault_pc : (s.setFault f).pc = s.pc := rfl
@[simp] theorem State.setFault_DT : (s.setFault f).DT = s.DT := rfl
@[simp] theorem State.setFault_ST : (s.setFault f).ST = s.ST := rfl
@[simp] theorem State.setFault_stack : (s.setFault f).stack = s.stack := rfl
@[simp] theorem State.setFault_mem : (s.setFault f).mem = s.mem := rfl
@[simp] theorem State.setFault_fb : (s.setFault f).fb = s.fb := rfl
@[simp] theorem State.setFault_dirty : (s.setFault f).dirty = s.dirty := rfl
@[simp] theorem State.setFault_key : (s.setFault f).key = s.key := rfl
@[simp] theorem State.setFault_wait : (s.setFault f).wait = s.wait := rfl
@[simp] theorem State.setFault_fault : (s.setFault f).fault = f := rfl
@[simp] theorem State.setFault_draws : (s.setFault f).draws = s.draws := rfl
end setFault

section setDraws
variable (s : State) (n : Nat)
@[simp] theorem State.setDraws_V : (s.setDraws n).V = s.V := rfl
@[simp] theorem State.setDraws_I : (s.setDraws n).I = s.I := rfl
@[simp] theorem State.setDraws_pc : (s.setDraws n).pc = s.pc := rfl
@[simp] theorem State.setDraws_DT : (s.setDraws n).DT = s.DT := rfl
@[simp] theorem State.setDraws_ST : (s.setDraws n).ST = s.ST := rfl
@[simp] theorem State.setDraws_stack : (s.setDraws n).stack = s.stack := rfl
@[simp] theorem State.setDraws_mem : (s.setDraws n).mem = s.mem := rfl
@[simp] theorem State.setDraws_fb : (s.setDraws n).fb = s.fb := rfl
@[simp] theorem State.setDraws_dirty : (s.setDraws n).dirty = s.dirty := rfl
@[simp] theorem State.setDraws_key : (s.setDraws n).key = s.key := rfl
@[simp] theorem State.setDraws_wait : (s.setDraws n).wait = s.wait := rfl
@[simp] theorem State.setDraws_fault : (s.setDraws n).fault = s.fault := rfl
@[simp] theorem State.setDraws_draws : (s.setDraws n).draws = n := rfl
end setDraws

section setReg
variable (s : State) (r : Reg) (b : Byte)
@[simp] theorem State.setReg_I : (s.setReg r b).I = s.I := rfl
@[simp] theorem State.setReg_pc : (s.setReg r b).pc = s.pc := rfl
@[simp] theorem State.setReg_DT : (s.setReg r b).DT = s.DT := rfl
@[simp] theorem State.setReg_ST : (s.setReg r b).ST = s.ST := rfl
@[simp] theorem State.setReg_stack : (s.setReg r b).stack = s.stack := rfl
@[simp] theorem State.setReg_mem : (s.setReg r b).mem = s.mem := rfl
@[simp] theorem State.setReg_fb : (s.setReg r b).fb = s.fb := rfl
@[simp] theorem State.setReg_dirty : (s.setReg r b).dirty = s.dirty := rfl
@[simp] theorem State.setReg_key : (s.setReg r b).key = s.key := rfl
@[simp] theorem State.setReg_wait : (s.setReg r b).wait = s.wait := rfl
@[simp] theorem State.setReg_fault : (s.setReg r b).fault = s.fault := rfl
@[simp] theorem State.setReg_draws : (s.setReg r b).draws = s.draws := rfl
end setReg

section advance
variable (s : State)
@[simp] theorem State.advance_V : s.advance.V = s.V := rfl
@[simp] theorem State.advance_I : s.advance.I = s.I := rfl
@[simp] theorem State.advance_pc : s.advance.pc = s.pc + 2#16 := rfl
@[simp] theorem State.advance_DT : s.advance.DT = s.DT := rfl
@[simp] theorem State.advance_ST : s.advance.ST = s.ST := rfl
@[simp] theorem State.advance_stack : s.advance.stack = s.stack := rfl
@[simp] theorem State.advance_mem : s.advance.mem = s.mem := rfl
@[simp] theorem State.advance_fb : s.advance.fb = s.fb := rfl
@[simp] theorem State.advance_dirty : s.advance.dirty = s.dirty := rfl
@[simp] theorem State.advance_key : s.advance.key = s.key := rfl
@[simp] theorem State.advance_wait : s.advance.wait = s.wait := rfl
@[simp] theorem State.advance_fault : s.advance.fault = s.fault := rfl
@[simp] theorem State.advance_draws : s.advance.draws = s.draws := rfl
end advance

section reg
variable (s : State) (k r : Reg)

/-- A register after a register write, in one equation. -/
theorem State.reg_setReg (b : Byte) : (s.setReg r b).reg k = if k = r then b else s.reg k := by
  simp only [State.reg, State.setReg, Vector.get_eq_getElem, Vector.getElem_set, Fin.ext_iff, eq_comm]

@[simp] theorem State.reg_setReg_same (b : Byte) : (s.setReg r b).reg r = b := by simp [State.reg_setReg]

@[simp] theorem State.reg_setReg_of_ne (b : Byte) (h : k ≠ r) : (s.setReg r b).reg k = s.reg k := by
  simp [State.reg_setReg, h]

@[simp] theorem State.reg_setV (v : Vector Byte 16) : (s.setV v).reg k = v.get k := rfl
@[simp] theorem State.reg_setI (w : Word) : (s.setI w).reg k = s.reg k := rfl
@[simp] theorem State.reg_setPc (w : Word) : (s.setPc w).reg k = s.reg k := rfl
@[simp] theorem State.reg_setDT (b : Byte) : (s.setDT b).reg k = s.reg k := rfl
@[simp] theorem State.reg_setST (b : Byte) : (s.setST b).reg k = s.reg k := rfl
@[simp] theorem State.reg_setStack (st : List Word) : (s.setStack st).reg k = s.reg k := rfl
@[simp] theorem State.reg_setMem (m : Memory) : (s.setMem m).reg k = s.reg k := rfl
@[simp] theorem State.reg_setFb (d : Display) : (s.setFb d).reg k = s.reg k := rfl
@[simp] theorem State.reg_setDirty (b : Bool) : (s.setDirty b).reg k = s.reg k := rfl
@[simp] theorem State.reg_setKeys (ks : Keys) : (s.setKeys ks).reg k = s.reg k := rfl
@[simp] theorem State.reg_setWait (w : Option Reg) : (s.setWait w).reg k = s.reg k := rfl
@[simp] theorem State.reg_setFault (f : Option Fault) : (s.setFault f).reg k = s.reg k := rfl
@[simp] theorem State.reg_setDraws (n : Nat) : (s.setDraws n).reg k = s.reg k := rfl
@[simp] theorem State.reg_advance : s.advance.reg k = s.reg k := rfl

end reg

end Sys2Proof.Machine
end

