-- ==== Sys2Proof/Laws/Exec.lean ====
section
/-! SUPPORT. What each shared operation can do, once: call stack, keys, flags, ALU, register file moves, and the shared
shapes of an instruction's next state. -/

namespace Sys2Proof.Machine

/-! Call stack -/

theorem pushStack_of_lt {st : List Word} (v : Word) (h : st.length < 16) : pushStack st v = some (st ++ [v]) :=
  if_pos h

theorem pushStack_of_full {st : List Word} (v : Word) (h : 16 ≤ st.length) : pushStack st v = none :=
  if_neg (Nat.not_lt.mpr h)

/-- A push that succeeds appended to a stack that was not full. -/
theorem pushStack_eq_some {st st' : List Word} {v : Word} (h : pushStack st v = some st') :
    st.length < 16 ∧ st' = st ++ [v] := by
  unfold pushStack at h
  split at h
  · exact ⟨‹_›, by simpa using h.symm⟩
  · cases h

@[simp] theorem popStack_append (st : List Word) (v : Word) : popStack (st ++ [v]) = some (v, st) := by
  simp [popStack]

@[simp] theorem popStack_nil : popStack [] = none := rfl

/-- A pop that succeeds took the last element. -/
theorem popStack_eq_some {st st' : List Word} {v : Word} (h : popStack st = some (v, st')) : st = st' ++ [v] := by
  rcases List.eq_nil_or_concat st with rfl | ⟨l, w, rfl⟩
  · cases h
  · rw [List.concat_eq_append, popStack_append] at h
    cases h
    exact List.concat_eq_append

theorem popStack_eq_none {st : List Word} (h : popStack st = none) : st = [] := by
  rcases List.eq_nil_or_concat st with rfl | ⟨l, w, rfl⟩
  · rfl
  · rw [List.concat_eq_append, popStack_append] at h
    cases h

/-! Keys -/

theorem firstPressedKey_none {ks : Keys} (h : ∀ k : Fin 16, ks.get k = false) : firstPressedKey ks = none := by
  simp [firstPressedKey, List.find?_eq_none, isKeyPressed, h]

/-- The first pressed key is the lowest one. -/
theorem firstPressedKey_some {ks : Keys} {k : Fin 16} (hk : ks.get k = true)
    (hlow : ∀ j : Fin 16, j < k → ks.get j = false) : firstPressedKey ks = some k := by
  unfold firstPressedKey isKeyPressed
  rw [List.find?_eq_some_iff_getElem]
  refine ⟨hk, k.val, by simp, by simp, fun j hj => ?_⟩
  simp only [List.getElem_finRange, Bool.not_eq_true']
  exact hlow _ hj

/-- What the key query can answer. -/
theorem firstPressedKey_eq_some {ks : Keys} {k : Fin 16} (h : firstPressedKey ks = some k) : ks.get k = true :=
  List.find?_some (p := fun k => isKeyPressed ks k) h

theorem keyIndex_of_eq {b : Byte} {k : Fin 16} (h : b.toNat = k.val) : keyIndex b = some k := by
  have := k.isLt
  simp only [keyIndex]
  rw [dif_pos (by omega)]
  simp [h]

theorem keyIndex_of_gt {b : Byte} (h : 15 < b.toNat) : keyIndex b = none := by
  simp only [keyIndex]
  rw [dif_neg (by omega)]

theorem keyIndex_eq_none {b : Byte} (h : keyIndex b = none) : 15 < b.toNat := by
  unfold keyIndex at h
  split at h
  · cases h
  · omega

@[simp] theorem keyByte_toNat (k : Fin 16) : (keyByte k).toNat = k.val := by
  have := k.isLt
  simp only [keyByte, trunc8_toNat]
  omega

/-! Flags and ALU results as numbers -/

theorem flagByte_toNat (b : Bool) : (flagByte b).toNat = if b then 1 else 0 := by cases b <;> rfl

theorem carryFlag_toNat (a b : Byte) : (carryFlag a b).toNat = if 255 < a.toNat + b.toNat then 1 else 0 := by
  simp [carryFlag, flagByte_toNat]

theorem noBorrowFlag_toNat (a b : Byte) : (noBorrowFlag a b).toNat = if a.toNat < b.toNat then 0 else 1 := by
  simp only [noBorrowFlag, flagByte_toNat, decide_eq_true_eq]
  split <;> split <;> omega

theorem shrFlag_toNat (a : Byte) : (shrFlag a).toNat = a.toNat % 2 := by
  simp only [shrFlag, flagByte_toNat, BitVec.getLsbD, Nat.testBit_zero, decide_eq_true_eq]
  split <;> omega

theorem shlFlag_toNat (a : Byte) : (shlFlag a).toNat = a.toNat / 128 := by
  have := a.isLt
  simp only [shlFlag, flagByte_toNat, BitVec.getLsbD, Nat.testBit_eq_decide_div_mod_eq, decide_eq_true_eq]
  split <;> omega

theorem aluAdd_toNat (a b : Byte) : (aluAdd a b).toNat = (a.toNat + b.toNat) % 256 := trunc8_toNat _

theorem aluSub_toNat (a b : Byte) : ((aluSub a b).toNat : Int) = ((a.toNat : Int) - b.toNat) % 256 := by
  have := a.isLt
  have := b.isLt
  simp only [aluSub, trunc8_toNat]
  omega

theorem aluShr_toNat (a : Byte) : (aluShr a).toNat = a.toNat / 2 := by
  have := a.isLt
  simp only [aluShr, trunc8_toNat]
  omega

theorem aluShl_toNat (a : Byte) : (aluShl a).toNat = 2 * a.toNat % 256 := trunc8_toNat _

/-! Operand forms -/

@[simp] theorem zextAddr_toNat (nnn : Addr) : (zextAddr nnn).toNat = nnn.toNat := by
  have := nnn.isLt
  simp only [zextAddr, trunc16_toNat]
  omega

@[simp] theorem offsetTarget_toNat (nnn : Addr) (b : Byte) : (offsetTarget nnn b).toNat = nnn.toNat + b.toNat := by
  have := nnn.isLt
  have := b.isLt
  simp only [offsetTarget, trunc16_toNat]
  omega

theorem glyphAddr_of_le {d : Byte} (h : d.toNat ≤ 15) :
    ∃ a, glyphAddr d = some a ∧ a.toNat = Config.fontBase.val + 5 * d.toNat := by
  have := Config.fontBase.isLt
  refine ⟨_, if_pos (by omega), ?_⟩
  rw [trunc16_toNat]
  omega

theorem glyphAddr_of_gt {d : Byte} (h : 15 < d.toNat) : glyphAddr d = none := if_neg (by omega)

@[simp] theorem regsUpTo_length (s : State) (x : Reg) : (regsUpTo s x).length = x.val + 1 := by
  have := x.isLt
  simp only [regsUpTo, List.length_take, Vector.length_toList]
  omega

theorem regsUpTo_getElem (s : State) (x k : Reg) (h : k.val < (regsUpTo s x).length) :
    (regsUpTo s x)[k.val] = s.reg k := by
  simp [regsUpTo, State.reg, Vector.get_eq_getElem]

theorem regsLoaded_get (V : Vector Byte 16) (bs : List Byte) (k : Reg) :
    (regsLoaded V bs).get k = bs.getD k.val (V.get k) := by
  simp [regsLoaded, Vector.get_eq_getElem]

/-! The shared shapes -/

/-- Taking a fault answers the state before the step with the error recorded. -/
theorem takeFault_eq (e : Fault) (s : State) : takeFault e s = .next (s.setFault (some e)) := rfl

theorem writeReg_eq (x : Reg) (r : Byte) (s : State) : writeReg x r s = .next (s.advance.setReg x r) := rfl

theorem writeRegFlag_eq (x : Reg) (r f : Byte) (s : State) :
    writeRegFlag x r f s = .next ((s.advance.setReg x r).setReg VF f) := rfl

/-- A skip answers one of two states. -/
theorem skipIf_eq (c : Bool) (s : State) :
    skipIf c s = .next (if c then s.advance.advance else s.advance) := rfl

/-- What a store from I can do: the bytes stored inside memory, or the bounds error with nothing stored. -/
theorem storeAtI_cases {bs : List Byte} (s : State) (h0 : bs ≠ []) :
    (s.base + bs.length ≤ 4096 ∧
      ∃ m, writeRange s.mem s.base bs = .ok m ∧ storeAtI bs s = .next (s.advance.setMem m)) ∨
    (4096 < s.base + bs.length ∧ storeAtI bs s = takeFault (.memoryBoundsError (max s.base 4096)) s) := by
  rcases Nat.lt_or_ge 4096 (s.base + bs.length) with h | h
  · exact .inr ⟨h, by simp only [storeAtI, writeRange_error s.mem bs h0 h]⟩
  · obtain ⟨m, hm, -⟩ := writeRange_ok s.mem (base := s.base) bs (.inr h)
    exact .inl ⟨h, m, hm, by simp only [storeAtI, hm]⟩

/-- What a read from I can do: the bytes of a range inside memory, or the bounds error. -/
theorem readRange_cases (m : Memory) (base n : Nat) :
    ((n = 0 ∨ base + n ≤ 4096) ∧
      readRange m base n = .ok ((List.range n).map (fun k => Memory.read m (base + k)))) ∨
    ((n ≠ 0 ∧ 4096 < base + n) ∧ readRange m base n = .error (.memoryBoundsError (max base 4096))) := by
  by_cases h : n = 0 ∨ base + n ≤ 4096
  · exact .inl ⟨h, readRange_ok m h⟩
  · have h' : n ≠ 0 ∧ 4096 < base + n := by omega
    exact .inr ⟨h', readRange_error m h'.1 h'.2⟩

end Sys2Proof.Machine
end

