-- ==== Sys2Proof/Laws/Display.lean ====
section
/-! SUPPORT. The display: pixels after a flip, what the flip loop does, and which pixels a sprite aims at. -/

namespace Sys2Proof.Machine

/-- Two buffers with the same pixels are the same buffer. -/
theorem display_ext {a b : Display} (h : ∀ x y, pixel a x y = pixel b x y) : a = b := by
  apply Vector.ext
  intro y hy
  apply BitVec.eq_of_getLsbD_eq
  intro x hx
  exact h ⟨x, hx⟩ ⟨y, hy⟩

@[simp] theorem pixel_clearDisplay (x : Fin 64) (y : Fin 32) : pixel clearDisplay x y = false := by
  simp [pixel, clearDisplay, Vector.get_eq_getElem]

/-- A flip changes exactly its pixel. -/
theorem pixel_flipPixel (fb : Display) (x px : Fin 64) (y py : Fin 32) :
    pixel (flipPixel fb x y) px py = (pixel fb px py ^^ decide (px = x ∧ py = y)) := by
  have hx := px.isLt
  have h1 : (1#64 <<< x.val).getLsbD px.val = decide (px = x) := by
    rw [BitVec.getLsbD_shiftLeft, BitVec.getLsbD_one]
    simp only [Fin.ext_iff]
    by_cases h : px.val = x.val
    · simp [h]
    · simp only [h, decide_false, Bool.and_eq_false_imp, Bool.and_eq_true, decide_eq_true_eq,
        Bool.not_eq_true', decide_eq_false_iff_not]
      omega
  by_cases h : py = y
  · subst h
    simp only [pixel, flipPixel, Vector.get_eq_getElem, Vector.getElem_set_self, BitVec.getLsbD_xor, h1, and_true]
  · simp [pixel, flipPixel, Vector.get_eq_getElem, h, Vector.getElem_set_ne _ _ (fun e => h (Fin.ext e.symm))]

/-- What the flip loop does over pixels that differ pairwise: it flips exactly those, and reports whether one of them was
set. -/
theorem flipAll_spec (fb : Display) (c : Bool) (ps : List (Fin 64 × Fin 32)) (hps : ps.Nodup) :
    (∀ px py, pixel (flipAll fb c ps).1 px py = (pixel fb px py ^^ decide ((px, py) ∈ ps))) ∧
    ((flipAll fb c ps).2 = true ↔ c = true ∨ ∃ p ∈ ps, pixel fb p.1 p.2 = true) := by
  induction ps generalizing fb c with
  | nil => simp [flipAll]
  | cons p ps ih =>
    obtain ⟨x, y⟩ := p
    obtain ⟨hnot, hps⟩ := List.nodup_cons.mp hps
    obtain ⟨h1, h2⟩ := ih (flipPixel fb x y) (c || pixel fb x y) hps
    refine ⟨fun px py => ?_, ?_⟩
    · rw [flipAll, h1, pixel_flipPixel]
      by_cases h : px = x ∧ py = y
      · obtain ⟨rfl, rfl⟩ := h
        simp [hnot]
      · simp [h, Prod.ext_iff]
    · have h3 : ∀ p ∈ ps, pixel (flipPixel fb x y) p.1 p.2 = pixel fb p.1 p.2 := by
        intro p hp
        rw [pixel_flipPixel]
        have : ¬ (p.1 = x ∧ p.2 = y) := fun e => hnot (by rw [← e.1, ← e.2]; exact hp)
        simp [this]
      rw [flipAll, h2, Bool.or_eq_true, or_assoc, List.exists_mem_cons_iff]
      have h4 : (∃ p ∈ ps, pixel (flipPixel fb x y) p.1 p.2 = true) ↔ ∃ p ∈ ps, pixel fb p.1 p.2 = true :=
        exists_congr (fun p => and_congr_right (fun hp => by rw [h3 p hp]))
      rw [h4]

/-- The pixels one sprite row aims at. -/
theorem mem_rowPixels {x0 y : Nat} {row : Byte} {p : Fin 64 × Fin 32} :
    p ∈ rowPixels x0 y row ↔
      ∃ c, c < 8 ∧ row.getLsbD (7 - c) = true ∧ p.1.val = (x0 + c) % 64 ∧ p.2.val = y % 32 := by
  simp only [rowPixels, List.mem_map, List.mem_filter, List.mem_range, Config.spriteW, spriteBit, columnOf, rowOf,
    Prod.ext_iff, Fin.ext_iff, Fin.val_ofNat, and_assoc]
  exact exists_congr (fun c => by simp only [eq_comm])

/-- The pixels a sprite aims at. -/
theorem mem_spritePixels {x0 y0 : Nat} {rows : List Byte} {p : Fin 64 × Fin 32} :
    p ∈ spritePixels x0 y0 rows ↔
      ∃ r c, ∃ h : r < rows.length, c < 8 ∧ rows[r].getLsbD (7 - c) = true ∧ p.1.val = (x0 + c) % 64 ∧
        p.2.val = (y0 + r) % 32 := by
  induction rows generalizing y0 with
  | nil => simp [spritePixels]
  | cons row rows ih =>
    rw [spritePixels, List.mem_append, mem_rowPixels, ih]
    constructor
    · rintro (⟨c, hc, hb, hx, hy⟩ | ⟨r, c, hr, hc, hb, hx, hy⟩)
      · exact ⟨0, c, by simp, hc, hb, hx, hy⟩
      · exact ⟨r + 1, c, by simpa using hr, hc, by simpa using hb, hx, by rw [hy]; congr 1; omega⟩
    · rintro ⟨r, c, hr, hc, hb, hx, hy⟩
      cases r with
      | zero => exact .inl ⟨c, hc, hb, hx, hy⟩
      | succ r =>
        exact .inr ⟨r, c, by simpa using hr, hc, by simpa using hb, hx, by rw [hy]; congr 1; omega⟩

/-- The pixels of one row differ pairwise: 8 columns of 64. -/
theorem rowPixels_nodup (x0 y : Nat) (row : Byte) : (rowPixels x0 y row).Nodup := by
  apply List.Nodup.map_on _ (List.Nodup.filter _ List.nodup_range)
  intro a ha b hb h
  simp only [List.mem_filter, List.mem_range, Config.spriteW] at ha hb
  simp only [columnOf, Prod.ext_iff, Fin.ext_iff, Fin.val_ofNat] at h
  omega

/-- The pixels a sprite of at most 32 rows aims at differ pairwise. -/
theorem spritePixels_nodup (x0 y0 : Nat) (rows : List Byte) (h : rows.length ≤ 32) :
    (spritePixels x0 y0 rows).Nodup := by
  induction rows generalizing y0 with
  | nil => exact List.nodup_nil
  | cons row rows ih =>
    rw [List.length_cons] at h
    refine List.nodup_append.mpr ⟨rowPixels_nodup x0 y0 row, ih (y0 + 1) (by omega), ?_⟩
    rintro a ha b hb rfl
    obtain ⟨_, _, _, _, hy⟩ := mem_rowPixels.mp ha
    obtain ⟨r, _, hr, _, _, _, hy'⟩ := mem_spritePixels.mp hb
    omega

end Sys2Proof.Machine
end

