-- ==== Sys2Proof/Laws/Frame.lean ====
section
/-! SUPPORT. `ChangesOnly` for each shared shape of an instruction's next state. -/

namespace Sys2Proof.Safety

open Sys2Proof.Machine

theorem changesOnly_refl (regs : List Reg) (parts : List Part) (s : State) : ChangesOnly regs parts s s := by
  simp [ChangesOnly]

theorem changesOnly_trans {regs : List Reg} {parts : List Part} {s t u : State} (h : ChangesOnly regs parts s t)
    (h' : ChangesOnly regs parts t u) : ChangesOnly regs parts s u := by
  obtain ⟨a0, a1, a2, a3, a4, a5, a6, a7, a8, a9, a10, a11⟩ := h
  obtain ⟨b0, b1, b2, b3, b4, b5, b6, b7, b8, b9, b10, b11⟩ := h'
  exact ⟨fun k hk => (b0 k hk).trans (a0 k hk), fun h => (b1 h).trans (a1 h), fun h => (b2 h).trans (a2 h),
    fun h => (b3 h).trans (a3 h), fun h => (b4 h).trans (a4 h), fun h a => (b5 h a).trans (a5 h a),
    fun h => (b6 h).trans (a6 h), fun h => (b7 h).trans (a7 h), fun h => (b8 h).trans (a8 h),
    fun h => (b9 h).trans (a9 h), fun h => (b10 h).trans (a10 h), fun h => (b11 h).trans (a11 h)⟩

/-- A jump changes the pc only. -/
theorem changesOnly_setPc (s : State) (w : Word) : ChangesOnly [] [] s (s.setPc w) := by simp [ChangesOnly]

theorem changesOnly_advance (s : State) : ChangesOnly [] [] s s.advance := changesOnly_setPc s _

/-- A register write changes that register only. -/
theorem changesOnly_setReg (s : State) (r : Reg) (b : Byte) {regs : List Reg} (h : r ∈ regs) :
    ChangesOnly regs [] s (s.advance.setReg r b) := by
  refine ⟨fun k hk => ?_, by simp⟩
  have hne : k ≠ r := fun e => hk (e ▸ h)
  rw [State.reg_setReg, if_neg hne, State.reg_advance]

/-- A register write and a flag write change Vx and VF only. -/
theorem changesOnly_setReg_flag (s : State) (x : Reg) (r f : Byte) :
    ChangesOnly [x, 15] [] s ((s.advance.setReg x r).setReg VF f) := by
  refine ⟨fun k hk => ?_, by simp⟩
  simp only [List.mem_cons, List.not_mem_nil, or_false, not_or] at hk
  have hf : k ≠ VF := hk.2
  rw [State.reg_setReg_of_ne _ _ _ _ hf, State.reg_setReg_of_ne _ _ _ _ hk.1, State.reg_advance]

end Sys2Proof.Safety
end

