-- ==== Sys2Proof/Laws/Meaning.lean ====
section
/-! SUPPORT. What `exec` can do with each instruction when it answers a next state: an error recorded and nothing else,
or the instruction's own effect. The invariant and whole-machine proofs go through this one inversion. -/

namespace Sys2Proof.Machine

/-- The shape of the next state of each instruction that raises nothing, as far as it says which parts are written. -/
def Effect (i : Instr) (s t : State) : Prop :=
  match i with
  | .cls => t = (s.advance.setFb clearDisplay).setDirty true
  | .ret => ∃ v st, s.stack = st ++ [v] ∧ t = (s.setStack st).setPc v
  | .jp nnn => t = s.setPc (zextAddr nnn)
  | .call nnn => s.stack.length < 16 ∧ t = (s.setStack (s.stack ++ [s.pc + 2#16])).setPc (zextAddr nnn)
  | .jpV0 nnn => t = s.setPc (offsetTarget nnn (s.reg V0))
  | .seImm _ _ | .sneImm _ _ | .seReg _ _ | .sneReg _ _ | .skp _ | .sknp _ => t = s.advance ∨ t = s.advance.advance
  | .ldImm x _ | .addImm x _ | .ldReg x _ | .orReg x _ | .andReg x _ | .xorReg x _ | .ldVxDt x =>
    ∃ b, t = s.advance.setReg x b
  | .addReg x _ | .subReg x _ | .subn x _ | .shr x _ | .shl x _ => ∃ b f, t = (s.advance.setReg x b).setReg VF f
  | .ldI nnn => t = s.advance.setI (zextAddr nnn)
  | .addI _ | .ldF _ => ∃ w, t = s.advance.setI w
  | .rnd x _ => ∃ b, t = (s.setDraws (s.draws + 1)).advance.setReg x b
  | .drw _ _ _ => ∃ x0 y0 rows, t = drawRows x0 y0 rows s.advance
  | .ldVxK x => t = s.advance.setWait (some x)
  | .ldDtVx x => t = s.advance.setDT (s.reg x)
  | .ldStVx x => t = s.advance.setST (s.reg x)
  | .ldB _ | .dump _ => ∃ m, (Memory.wf s.mem = true → Memory.wf m = true) ∧ t = s.advance.setMem m
  | .load x => ∃ bs, bs.length = x.val + 1 ∧ t = s.advance.setV (regsLoaded s.V bs)

theorem bcdDigits_ne_nil (b : Byte) : bcdDigits b ≠ [] := by simp [bcdDigits]

theorem regsUpTo_ne_nil (s : State) (x : Reg) : regsUpTo s x ≠ [] := by
  intro e
  simpa [e] using regsUpTo_length s x

/-- A store from I either writes Memory, keeping its canonical form, or raises. -/
theorem storeAtI_next {bs : List Byte} {s t : State} (h0 : bs ≠ []) (h : storeAtI bs s = .next t) :
    (∃ e, t = s.setFault (some e)) ∨
    ∃ m, (Memory.wf s.mem = true → Memory.wf m = true) ∧ t = s.advance.setMem m := by
  rcases storeAtI_cases s h0 with ⟨hl, m, hm, e⟩ | ⟨-, e⟩ <;> rw [e] at h
  · cases h
    obtain ⟨m', h1, h2, -⟩ := writeRange_ok s.mem (base := s.base) _ (.inr hl)
    rw [hm] at h1
    cases h1
    exact .inr ⟨m, h2, rfl⟩
  · cases h
    exact .inl ⟨_, rfl⟩

/-- A skip ends at one of two places. -/
theorem skipIf_next {c : Bool} {s t : State} (h : skipIf c s = .next t) : t = s.advance ∨ t = s.advance.advance := by
  rw [skipIf_eq] at h
  cases h
  split
  · exact .inr rfl
  · exact .inl rfl

/-- Everything `exec` can answer as a next state. -/
theorem exec_next_cases {i : Instr} {s t : State} (h : exec i s = .next t) :
    (∃ e, t = s.setFault (some e)) ∨ Effect i s t := by
  cases i
  case ret =>
    simp only [exec, execRet] at h
    split at h
    · next v st hp => cases h; exact .inr ⟨_, _, popStack_eq_some hp, rfl⟩
    · cases h; exact .inl ⟨_, rfl⟩
  case call =>
    simp only [exec, execCall] at h
    split at h
    · next st hp =>
      cases h
      obtain ⟨a, rfl⟩ := pushStack_eq_some hp
      exact .inr ⟨a, rfl⟩
    · cases h; exact .inl ⟨_, rfl⟩
  case skp =>
    simp only [exec, execSkp] at h
    split at h
    · exact .inr (skipIf_next h)
    · cases h
  case sknp =>
    simp only [exec, execSknp] at h
    split at h
    · exact .inr (skipIf_next h)
    · cases h
  case ldF =>
    simp only [exec, execLdF] at h
    split at h
    · cases h; exact .inr ⟨_, rfl⟩
    · cases h
  case drw =>
    simp only [exec, execDrw] at h
    split at h
    · cases h; exact .inr ⟨_, _, _, rfl⟩
    · cases h; exact .inl ⟨_, rfl⟩
  case load x =>
    simp only [exec, execLoad] at h
    rcases readRange_cases s.mem s.base (x.val + 1) with ⟨-, e⟩ | ⟨-, e⟩ <;> rw [e] at h
    · cases h; exact .inr ⟨_, by simp, rfl⟩
    · cases h; exact .inl ⟨_, rfl⟩
  case ldB x => exact storeAtI_next (bcdDigits_ne_nil _) h
  case dump x => exact storeAtI_next (regsUpTo_ne_nil s x) h
  case seImm => exact .inr (skipIf_next h)
  case sneImm => exact .inr (skipIf_next h)
  case seReg => exact .inr (skipIf_next h)
  case sneReg => exact .inr (skipIf_next h)
  all_goals cases h; right
  all_goals first | exact rfl | exact ⟨_, rfl⟩ | exact ⟨_, _, rfl⟩

end Sys2Proof.Machine
end

