-- ==== Sys2Proof/Laws/PerInstr.lean ====
section
/-! SUPPORT. The per-instruction family RowMatch: the encoder puts every instruction into its own row of the opcode map
(30_encoding.md R75), whatever its operands. -/

namespace Sys2Proof.Laws.RowMatch

/-- The word of `i` is selected by the mask and match of its row, and the row is one of the opcode map's. -/
def Statement (i : Instr) : Prop := i.row ∈ opcodeMap ∧ encode i &&& i.row.mask = i.row.value

/-- Every instruction's row is a row of the map. -/
theorem row_mem (i : Instr) : i.row ∈ opcodeMap := by cases i <;> simp [Instr.row, opcodeMap]

theorem nibble_masked (a : BitVec 4) : a &&& 0xF#4 = a := BitVec.and_allOnes

theorem byte_masked (a : Byte) : a &&& 0xFF#8 = a := BitVec.and_allOnes

theorem encNNN_masked (hn : BitVec 4) (nnn : Addr) : encNNN hn nnn &&& 0xF000#16 = encNNN hn 0#12 :=
  (BitVec.and_append (x₂ := 0xF#4) (y₂ := 0x000#12)).trans (by rw [BitVec.and_zero, nibble_masked hn]; rfl)

theorem encXNN_masked_hn (hn : BitVec 4) (x : Reg) (nn : Byte) :
    encXNN hn x nn &&& 0xF000#16 = encNNN hn 0#12 := encNNN_masked hn (regField x ++ nn)

theorem encXNN_masked (hn : BitVec 4) (x : Reg) (nn : Byte) :
    encXNN hn x nn &&& 0xF0FF#16 = encXNN hn 0 nn :=
  (BitVec.and_append (x₂ := 0xF#4) (y₂ := 0x0FF#12)).trans (by
    rw [nibble_masked hn]
    exact congrArg (fun r : BitVec 12 => hn ++ r) ((BitVec.and_append (x₂ := 0x0#4) (y₂ := 0xFF#8)).trans (by
      rw [BitVec.and_zero, byte_masked nn]; rfl)))

theorem encXYN_masked_hn (hn : BitVec 4) (x y : Reg) (n : BitVec 4) :
    encXYN hn x y n &&& 0xF000#16 = encNNN hn 0#12 := encNNN_masked hn (regField x ++ (regField y ++ n))

theorem encXYN_masked (hn : BitVec 4) (x y : Reg) (n : BitVec 4) :
    encXYN hn x y n &&& 0xF00F#16 = encXYN hn 0 0 n :=
  (BitVec.and_append (x₂ := 0xF#4) (y₂ := 0x00F#12)).trans (by
    rw [nibble_masked hn]
    exact congrArg (fun r : BitVec 12 => hn ++ r) ((BitVec.and_append (x₂ := 0x0#4) (y₂ := 0x0F#8)).trans (by
      rw [BitVec.and_zero]
      exact congrArg (fun r : BitVec 8 => (0#4 ++ r : BitVec 12))
        ((BitVec.and_append (x₂ := 0x0#4) (y₂ := 0xF#4)).trans (by
          rw [BitVec.and_zero, nibble_masked n]; rfl)))))

theorem cls : Statement (.cls) := ⟨row_mem _, rfl⟩

theorem ret : Statement (.ret) := ⟨row_mem _, rfl⟩

theorem jp (nnn : Addr) : Statement (.jp nnn) := ⟨row_mem _, (encNNN_masked _ nnn).trans rfl⟩

theorem call (nnn : Addr) : Statement (.call nnn) := ⟨row_mem _, (encNNN_masked _ nnn).trans rfl⟩

theorem seImm (x : Reg) (nn : Byte) : Statement (.seImm x nn) := ⟨row_mem _, (encXNN_masked_hn _ x nn).trans rfl⟩

theorem sneImm (x : Reg) (nn : Byte) : Statement (.sneImm x nn) := ⟨row_mem _, (encXNN_masked_hn _ x nn).trans rfl⟩

theorem seReg (x y : Reg) : Statement (.seReg x y) := ⟨row_mem _, (encXYN_masked _ x y _).trans rfl⟩

theorem ldImm (x : Reg) (nn : Byte) : Statement (.ldImm x nn) := ⟨row_mem _, (encXNN_masked_hn _ x nn).trans rfl⟩

theorem addImm (x : Reg) (nn : Byte) : Statement (.addImm x nn) := ⟨row_mem _, (encXNN_masked_hn _ x nn).trans rfl⟩

theorem ldReg (x y : Reg) : Statement (.ldReg x y) := ⟨row_mem _, (encXYN_masked _ x y _).trans rfl⟩

theorem orReg (x y : Reg) : Statement (.orReg x y) := ⟨row_mem _, (encXYN_masked _ x y _).trans rfl⟩

theorem andReg (x y : Reg) : Statement (.andReg x y) := ⟨row_mem _, (encXYN_masked _ x y _).trans rfl⟩

theorem xorReg (x y : Reg) : Statement (.xorReg x y) := ⟨row_mem _, (encXYN_masked _ x y _).trans rfl⟩

theorem addReg (x y : Reg) : Statement (.addReg x y) := ⟨row_mem _, (encXYN_masked _ x y _).trans rfl⟩

theorem subReg (x y : Reg) : Statement (.subReg x y) := ⟨row_mem _, (encXYN_masked _ x y _).trans rfl⟩

theorem shr (x y : Reg) : Statement (.shr x y) := ⟨row_mem _, (encXYN_masked _ x y _).trans rfl⟩

theorem subn (x y : Reg) : Statement (.subn x y) := ⟨row_mem _, (encXYN_masked _ x y _).trans rfl⟩

theorem shl (x y : Reg) : Statement (.shl x y) := ⟨row_mem _, (encXYN_masked _ x y _).trans rfl⟩

theorem sneReg (x y : Reg) : Statement (.sneReg x y) := ⟨row_mem _, (encXYN_masked _ x y _).trans rfl⟩

theorem ldI (nnn : Addr) : Statement (.ldI nnn) := ⟨row_mem _, (encNNN_masked _ nnn).trans rfl⟩

theorem jpV0 (nnn : Addr) : Statement (.jpV0 nnn) := ⟨row_mem _, (encNNN_masked _ nnn).trans rfl⟩

theorem rnd (x : Reg) (nn : Byte) : Statement (.rnd x nn) := ⟨row_mem _, (encXNN_masked_hn _ x nn).trans rfl⟩

theorem drw (x y : Reg) (n : Nat) : Statement (.drw x y n) := ⟨row_mem _, (encXYN_masked_hn _ x y _).trans rfl⟩

theorem skp (x : Reg) : Statement (.skp x) := ⟨row_mem _, (encXNN_masked _ x _).trans rfl⟩

theorem sknp (x : Reg) : Statement (.sknp x) := ⟨row_mem _, (encXNN_masked _ x _).trans rfl⟩

theorem ldVxDt (x : Reg) : Statement (.ldVxDt x) := ⟨row_mem _, (encXNN_masked _ x _).trans rfl⟩

theorem ldVxK (x : Reg) : Statement (.ldVxK x) := ⟨row_mem _, (encXNN_masked _ x _).trans rfl⟩

theorem ldDtVx (x : Reg) : Statement (.ldDtVx x) := ⟨row_mem _, (encXNN_masked _ x _).trans rfl⟩

theorem ldStVx (x : Reg) : Statement (.ldStVx x) := ⟨row_mem _, (encXNN_masked _ x _).trans rfl⟩

theorem addI (x : Reg) : Statement (.addI x) := ⟨row_mem _, (encXNN_masked _ x _).trans rfl⟩

theorem ldF (x : Reg) : Statement (.ldF x) := ⟨row_mem _, (encXNN_masked _ x _).trans rfl⟩

theorem ldB (x : Reg) : Statement (.ldB x) := ⟨row_mem _, (encXNN_masked _ x _).trans rfl⟩

theorem dump (x : Reg) : Statement (.dump x) := ⟨row_mem _, (encXNN_masked _ x _).trans rfl⟩

theorem load (x : Reg) : Statement (.load x) := ⟨row_mem _, (encXNN_masked _ x _).trans rfl⟩

end Sys2Proof.Laws.RowMatch
end

