-- ==== Sys2Proof/Laws/Step.lean ====
section
/-! SUPPORT. What fetching and one step can do, once. -/

namespace Sys2Proof.Safety

open Sys2Proof.Machine

/-- A fetch with both bytes in range reads the big-endian word at the pc. -/
theorem fetchWord_eq (s : State) (h : s.pc.toNat + 1 < 4096) :
    fetchWord s.mem s.pc = .ok (BitVec.ofNat 16 (wordAtPc s)) := by
  unfold fetchWord
  rw [memRead_eq, if_pos (by omega)]
  simp only []
  rw [memRead_eq, if_pos h]
  simp [opcodeOf_eq, wordAtPc]

/-- A fetch that succeeds had both bytes in range. -/
theorem fetchWord_bounds {m : Memory} {pc op : Word} (h : fetchWord m pc = .ok op) : pc.toNat + 1 < 4096 := by
  by_contra hc
  unfold fetchWord at h
  rw [memRead_eq] at h
  by_cases h0 : pc.toNat < 4096
  · rw [if_pos h0] at h
    simp only [] at h
    rw [memRead_eq, if_neg hc] at h
    cases h
  · rw [if_neg h0] at h
    cases h

/-- On a dead session a step changes nothing. -/
theorem step_of_fault {s : State} {e : Fault} (h : s.fault = some e) : step s = .next s := by
  unfold step stepWith
  rw [h]

/-- A waiting step is one poll. -/
theorem step_of_wait {s : State} {r : Reg} (h : s.fault = none) (hw : s.wait = some r) :
    step s = .next (waitPoll r s) := by
  unfold step stepWith
  rw [h, hw]

/-- Otherwise a step fetches, and raises or executes. -/
theorem step_of_fetching {s : State} (h : Fetching s) :
    step s = match fetchInstr s with
      | .error e => takeFault e s
      | .ok i => exec i s := by
  cases hf : fetchInstr s <;> simp only [step, stepWith, h.1, h.2, hf]

/-- Everything a step with a next state can have been: nothing on a dead session, a poll, an error at fetch or decode, or
the execution of an instruction fetched from inside memory. -/
theorem step_next_cases {s t : State} (h : step s = .next t) :
    (s.fault ≠ none ∧ t = s) ∨
    (s.fault = none ∧ ∃ r, s.wait = some r ∧ t = waitPoll r s) ∨
    (Fetching s ∧ ∃ e, fetchInstr s = .error e ∧ t = s.setFault (some e)) ∨
    (Fetching s ∧ s.pc.toNat + 1 < 4096 ∧ ∃ i, fetchInstr s = .ok i ∧ exec i s = .next t) := by
  by_cases hf : s.fault = none
  · rcases hw : s.wait with _ | r
    · rw [step_of_fetching ⟨hf, hw⟩] at h
      rcases hi : fetchInstr s with e | i <;> rw [hi] at h
      · cases h
        exact .inr (.inr (.inl ⟨⟨hf, hw⟩, e, rfl, rfl⟩))
      · refine .inr (.inr (.inr ⟨⟨hf, hw⟩, ?_, i, rfl, h⟩))
        unfold fetchInstr at hi
        split at hi
        · cases hi
        · exact fetchWord_bounds ‹_›
    · rw [step_of_wait hf hw] at h
      cases h
      exact .inr (.inl ⟨hf, r, rfl, rfl⟩)
  · obtain ⟨e, he⟩ := Option.ne_none_iff_exists'.mp hf
    rw [step_of_fault he] at h
    cases h
    exact .inl ⟨hf, rfl⟩

/-- A poll changes at most the waiting register and the wait mode. -/
theorem waitPoll_changesOnly (r : Reg) (s : State) :
    (waitPoll r s).pc = s.pc ∧ ChangesOnly [r] [.wait] s (waitPoll r s) := by
  unfold waitPoll
  split
  · refine ⟨rfl, fun k hk => ?_, by simp⟩
    have hne : k ≠ r := by simpa using hk
    simp [hne]
  · simp [ChangesOnly]

end Sys2Proof.Safety
end

