-- ==== Sys2Proof/Tests/Slice0.lean ====
section
/-! SUPPORT. Tests of the model: the WellFormed smoke test, one hand-written word per constructor, the spec's own test
vectors (95_test_vectors.md, cited by section or id), and a witness for the hypotheses of each obligation. Every
expected value is the spec's. -/

namespace Sys2Proof.Tests

open Sys2Proof.Machine Sys2Proof.Safety

/-- `p` holds of the next state. -/
def after (r : Result) (p : State → Bool) : Bool :=
  match r with
  | .next t => p t
  | _ => false

/-- The refusal a result is, if it is one. -/
def refusalOf (r : Result) : Option Refusal :=
  match r with
  | .refused e => some e
  | _ => none

/-- The reset state with some registers set. -/
def regs (l : List (Reg × Byte)) : State := l.foldl (fun s p => s.setReg p.1 p.2) State.reset

/-- The reset state at `pc` with the bytes of one opcode there. -/
def atWord (pc : Word) (b0 b1 : Byte) : State :=
  (State.reset.setPc pc).setMem (Memory.write (Memory.write [] pc.toNat b0) (pc.toNat + 1) b1)

/-- The reset state with I = `i` and bytes stored from 0x300 on. -/
def withBytes (i : Word) (bs : List Byte) (s : State) : State :=
  match writeRange [] 0x300 bs with
  | .ok m => (s.setI i).setMem m
  | .error _ => s

/-- The pixels that are set among a list of candidates. -/
def pixelsAt (t : State) (l : List (Fin 64 × Fin 32)) : List Bool := l.map (fun p => pixel t.fb p.1 p.2)

/-- How many pixels of a row are set. -/
def rowCount (t : State) (y : Fin 32) : Nat := ((List.finRange 64).filter (fun x => pixel t.fb x y)).length

/-! ## WellFormed -/

theorem test_wellFormed_refuses_height_16 : (Instr.drw 0 0 16).wellFormed = false := by decide

theorem test_wellFormed_accepts_height_15 : (Instr.drw 15 15 15).wellFormed = true := by decide

/-! ## Decoding: one word per constructor, bit by bit from R75 -/

theorem test_decode_display : decode 0b0000000011100000#16 = .ok .cls ∧
    decode 0b1101111000110101#16 = .ok (.drw 14 3 5) := by decide

theorem test_decode_control :
    decode 0b0000000011101110#16 = .ok .ret ∧
    decode 0b0001101010111100#16 = .ok (.jp 0xABC#12) ∧
    decode 0b0010001100000000#16 = .ok (.call 0x300#12) ∧
    decode 0b1011010000000001#16 = .ok (.jpV0 0x401#12) ∧
    decode 0b0011010100101010#16 = .ok (.seImm 5 0x2A#8) ∧
    decode 0b0100010100101010#16 = .ok (.sneImm 5 0x2A#8) ∧
    decode 0b0101000100100000#16 = .ok (.seReg 1 2) ∧
    decode 0b1001000100100000#16 = .ok (.sneReg 1 2) := by decide

theorem test_decode_immediate :
    decode 0b0110101000111100#16 = .ok (.ldImm 10 0x3C#8) ∧
    decode 0b0111001100100000#16 = .ok (.addImm 3 0x20#8) ∧
    decode 0b1100000100001111#16 = .ok (.rnd 1 0x0F#8) := by decide

theorem test_decode_alu :
    decode 0b1000000100100000#16 = .ok (.ldReg 1 2) ∧
    decode 0b1000000100100001#16 = .ok (.orReg 1 2) ∧
    decode 0b1000000100100010#16 = .ok (.andReg 1 2) ∧
    decode 0b1000000100100011#16 = .ok (.xorReg 1 2) ∧
    decode 0b1000000100100100#16 = .ok (.addReg 1 2) ∧
    decode 0b1000000100100101#16 = .ok (.subReg 1 2) ∧
    decode 0b1000000100100110#16 = .ok (.shr 1 2) ∧
    decode 0b1000000100100111#16 = .ok (.subn 1 2) ∧
    decode 0b1000000100101110#16 = .ok (.shl 1 2) := by decide

theorem test_decode_index :
    decode 0b1010001011110000#16 = .ok (.ldI 0x2F0#12) ∧
    decode 0b1111001000011110#16 = .ok (.addI 2) ∧
    decode 0b1111001100101001#16 = .ok (.ldF 3) := by decide

theorem test_decode_input :
    decode 0b1110001010011110#16 = .ok (.skp 2) ∧
    decode 0b1110001010100001#16 = .ok (.sknp 2) ∧
    decode 0b1111001100001010#16 = .ok (.ldVxK 3) := by decide

theorem test_decode_timer :
    decode 0b1111010100000111#16 = .ok (.ldVxDt 5) ∧
    decode 0b1111010100010101#16 = .ok (.ldDtVx 5) ∧
    decode 0b1111000000011000#16 = .ok (.ldStVx 0) := by decide

theorem test_decode_bcd_dump :
    decode 0b1111101000110011#16 = .ok (.ldB 10) ∧
    decode 0b1111001001010101#16 = .ok (.dump 2) ∧
    decode 0b1111111101100101#16 = .ok (.load 15) := by decide

/-- 95 section 2.1: illegal words, each refused by name. -/
theorem test_decode_illegal :
    ([0x0000#16, 0x0123#16, 0x5121#16, 0x9001#16, 0x8128#16, 0x812F#16, 0xE19F#16, 0xE1A0#16, 0xF000#16, 0xF1FF#16,
      0xF130#16, 0xF185#16, 0x00E1#16, 0x00EF#16, 0x00FB#16, 0x00C1#16].all
      (fun op => decide (decode op = .error (.illegalOpcode op)))) = true := by decide

theorem test_decode_truncated : decodeBytes [0x60#8] = .error .truncated := by decide

theorem test_decodeTableWord : decodeTableWord 16 0x8F15 = some (.subReg 15 1) := by decide

/-! ## The step cycle (95 section 2.1) -/

theorem test_fetch_is_big_endian : after (step (atWord 0x200#16 0x12#8 0x34#8)) (·.pc == 0x234#16) = true := by decide

theorem test_fetch_at_top_of_memory :
    after (step (atWord 0xFFE#16 0x60#8 0x01#8)) (fun t => t.reg 0 == 1#8 && t.pc == 0x1000#16) = true := by decide

theorem test_fetch_odd_address :
    after (step (atWord 0x201#16 0x6A#8 0x3C#8)) (fun t => t.reg 10 == 0x3C#8 && t.pc == 0x203#16) = true := by decide

theorem test_fetch_past_memory :
    after (step (State.reset.setPc 0x1000#16)) (fun t => t.fault == some (.memoryBoundsError 0x1000) && t.pc == 0x1000#16)
      = true := by decide

theorem test_fetch_second_byte_outside :
    after (step (State.reset.setPc 0xFFF#16)) (fun t => t.fault == some (.memoryBoundsError 0x1000) && t.pc == 0xFFF#16)
      = true := by decide

/-- S10 and R77: zero-filled memory is illegal, and the error is recorded with everything else unchanged. -/
theorem test_illegal_word_raises : step State.reset = .next (State.reset.setFault (some (.decodeError 0#16 0x200#16))) :=
  rfl

theorem test_raisedBy_names_the_error : raisedBy State.reset = some (.decodeError 0#16 0x200#16) := by decide

theorem test_dead_session_stays : step (State.reset.setFault (some (.stackUnderflowError 0x200#16))) =
    .next (State.reset.setFault (some (.stackUnderflowError 0x200#16))) := rfl

theorem test_withFetchWord_runs :
    after (step (State.reset.withFetchWord 16 0x6A3C)) (fun t => t.reg 10 == 0x3C#8 && t.pc == 0x202#16) = true := by
  decide

/-! ## Arithmetic, immediate (95 section 2.2) -/

theorem test_ldImm : after (exec (.ldImm 15 0xFF#8) State.reset) (·.reg 15 == 0xFF#8) = true := by decide

theorem test_addImm_wraps_without_flag :
    after (exec (.addImm 3 0x20#8) (regs [(3, 0xF0#8), (15, 0x07#8)])) (fun t => t.reg 3 == 0x10#8 && t.reg 15 == 0x07#8)
      = true := by decide

theorem test_addImm_into_vf : after (exec (.addImm 15 0x02#8) (regs [(15, 0xFF#8)])) (·.reg 15 == 0x01#8) = true := by decide

/-- `C100` gives 0 for any draw. -/
theorem test_rnd_mask_zero : ∃ t, exec (.rnd 1 0x00#8) State.reset = .next t ∧ t.reg 1 = 0#8 :=
  ⟨_, rfl, (State.reg_setReg_same _ 1 _).trans BitVec.and_zero⟩

/-- `C1FF` gives the draw. -/
theorem test_rnd_mask_all : ∃ t, exec (.rnd 1 0xFF#8) State.reset = .next t ∧ t.reg 1 = Config.draw8 0 :=
  ⟨_, rfl, (State.reg_setReg_same _ 1 _).trans BitVec.and_allOnes⟩

/-! ## Arithmetic, register (95 section 2.3) -/

theorem test_ldReg : after (exec (.ldReg 0 1) (regs [(1, 0x5A#8)])) (·.reg 0 == 0x5A#8) = true := by decide

theorem test_orReg : after (exec (.orReg 0 1) (regs [(0, 0xF0#8), (1, 0x0F#8), (15, 1#8)]))
    (fun t => t.reg 0 == 0xFF#8 && t.reg 15 == 1#8) = true := by decide

theorem test_andReg : after (exec (.andReg 0 1) (regs [(0, 0xF3#8), (1, 0x3C#8)])) (·.reg 0 == 0x30#8) = true := by decide

theorem test_xorReg : after (exec (.xorReg 0 1) (regs [(0, 0xFF#8), (1, 0x0F#8)])) (·.reg 0 == 0xF0#8) = true := by decide

theorem test_addReg_carry : after (exec (.addReg 0 1) (regs [(0, 0xC8#8), (1, 0x64#8)]))
    (fun t => t.reg 0 == 0x2C#8 && t.reg 15 == 1#8) = true := by decide

/-- `8F14` with VF = 0xF0, V1 = 0x20: the flag wins. -/
theorem test_addReg_into_vf : after (exec (.addReg 15 1) (regs [(15, 0xF0#8), (1, 0x20#8)])) (·.reg 15 == 1#8) = true := by
  decide

theorem test_subReg_borrow : after (exec (.subReg 0 1) (regs [(0, 0x10#8), (1, 0x20#8)]))
    (fun t => t.reg 0 == 0xF0#8 && t.reg 15 == 0#8) = true := by decide

/-- `80F5` with V0 = 0x05, VF = 0x03: the old VF is the subtrahend. -/
theorem test_subReg_from_vf : after (exec (.subReg 0 15) (regs [(0, 0x05#8), (15, 0x03#8)]))
    (fun t => t.reg 0 == 0x02#8 && t.reg 15 == 1#8) = true := by decide

theorem test_subn : after (exec (.subn 0 1) (regs [(0, 0x10#8), (1, 0x20#8)]))
    (fun t => t.reg 0 == 0x10#8 && t.reg 15 == 1#8) = true := by decide

theorem test_subn_borrow : after (exec (.subn 0 1) (regs [(0, 0xFF#8), (1, 0x00#8)]))
    (fun t => t.reg 0 == 0x01#8 && t.reg 15 == 0#8) = true := by decide

theorem test_shr_ignores_vy : after (exec (.shr 0 1) (regs [(0, 0x05#8), (1, 0xF0#8)]))
    (fun t => t.reg 0 == 0x02#8 && t.reg 15 == 1#8 && t.reg 1 == 0xF0#8) = true := by decide

theorem test_shr_vf : after (exec (.shr 15 0) (regs [(15, 0x01#8)])) (·.reg 15 == 1#8) = true := by decide

theorem test_shl : after (exec (.shl 0 1) (regs [(0, 0xC1#8)])) (fun t => t.reg 0 == 0x82#8 && t.reg 15 == 1#8) = true := by
  decide

theorem test_shl_no_carry : after (exec (.shl 0 1) (regs [(0, 0x7F#8)])) (fun t => t.reg 0 == 0xFE#8 && t.reg 15 == 0#8)
    = true := by decide

/-! ## Control flow (95 section 2.4) -/

theorem test_jp : after (exec (.jp 0xFFF#12) State.reset) (·.pc == 0xFFF#16) = true := by decide

theorem test_call : after (exec (.call 0x300#12) (State.reset.setPc 0x204#16))
    (fun t => t.stack == [0x206#16] && t.pc == 0x300#16) = true := by decide

theorem test_call_overflow :
    after (exec (.call 0x300#12) ((State.reset.setPc 0x204#16).setStack (List.replicate 16 0x202#16)))
      (fun t => t.fault == some (.stackOverflowError 0x204#16) && t.stack.length == 16 && t.pc == 0x204#16) = true := by decide

theorem test_ret : after (exec .ret (State.reset.setStack [0x206#16, 0x30A#16]))
    (fun t => t.pc == 0x30A#16 && t.stack == [0x206#16]) = true := by decide

theorem test_ret_underflow : after (exec .ret State.reset)
    (fun t => t.fault == some (.stackUnderflowError 0x200#16) && t.pc == 0x200#16) = true := by decide

theorem test_jpV0_is_not_reduced : after (exec (.jpV0 0xFFF#12) (regs [(0, 0xFF#8)])) (·.pc == 0x10FE#16) = true := by decide

theorem test_jpV0_uses_v0 : after (exec (.jpV0 0x400#12) (regs [(0, 0x02#8), (4, 0x50#8)])) (·.pc == 0x402#16) = true := by
  decide

theorem test_seImm : after (exec (.seImm 5 0x2A#8) (regs [(5, 0x2A#8)])) (·.pc == 0x204#16) = true ∧
    after (exec (.seImm 5 0x2B#8) (regs [(5, 0x2A#8)])) (·.pc == 0x202#16) = true := by decide

theorem test_sneImm : after (exec (.sneImm 5 0x2A#8) (regs [(5, 0x2A#8)])) (·.pc == 0x202#16) = true ∧
    after (exec (.sneImm 5 0x00#8) (regs [(5, 0x2A#8)])) (·.pc == 0x204#16) = true := by decide

theorem test_seReg : after (exec (.seReg 1 2) (regs [(1, 9#8), (2, 9#8)])) (·.pc == 0x204#16) = true ∧
    after (exec (.seReg 1 2) (regs [(1, 9#8), (2, 10#8)])) (·.pc == 0x202#16) = true := by decide

theorem test_sneReg : after (exec (.sneReg 1 2) (regs [(1, 9#8), (2, 10#8)])) (·.pc == 0x204#16) = true ∧
    after (exec (.sneReg 3 3) State.reset) (·.pc == 0x202#16) = true := by decide

/-! ## Memory and index (95 section 2.5) -/

theorem test_ldI : after (exec (.ldI 0xFFF#12) State.reset) (·.I == 0x0FFF#16) = true := by decide

theorem test_addI_passes_0x1000 : after (exec (.addI 2) ((regs [(2, 1#8)]).setI 0x0FFF#16))
    (fun t => t.I == 0x1000#16 && t.reg 15 == 0#8) = true := by decide

theorem test_addI_wraps : after (exec (.addI 2) ((regs [(2, 2#8)]).setI 0xFFFF#16)) (·.I == 0x0001#16) = true := by decide

/-- `F329` with V3 = 0x0F: I = FONT_BASE + 75, for every FONT_BASE. -/
theorem test_ldF : ∃ t, exec (.ldF 3) (regs [(3, 0x0F#8)]) = .next t ∧ t.I = trunc16 (Config.fontBase.val + 75) :=
  ⟨_, rfl, rfl⟩

theorem test_ldF_refuses_16 : refusalOf (exec (.ldF 3) (regs [(3, 0x10#8)])) = some (.fontDigitOutOfRange 0x10#8) := by decide

/-! ## Display (95 section 2.6) -/

theorem test_cls_marks_dirty : after (exec .cls State.reset) (fun t => t.dirty && rowCount t 0 == 0) = true := by decide

/-- 0xC3 at (62, 31): (62,31), (63,31), (4,31), (5,31) set, VF = 0, dirty (R172's example). -/
theorem test_drw_wraps :
    after (exec (.drw 0 1 1) (withBytes 0x300#16 [0xC3#8] (regs [(0, 62#8), (1, 31#8)])))
      (fun t => pixelsAt t [(62, 31), (63, 31), (4, 31), (5, 31)] == [true, true, true, true] && rowCount t 31 == 4 &&
        t.reg 15 == 0#8 && t.dirty) = true := by decide

/-- fb (0,0) = 1 only, mem[I] = 0xC0 at (0,0): (0,0) = 0, (1,0) = 1, VF = 1. -/
theorem test_drw_collides :
    after (exec (.drw 0 1 1) ((withBytes 0x300#16 [0xC0#8] State.reset).setFb (flipPixel clearDisplay 0 0)))
      (fun t => pixelsAt t [(0, 0), (1, 0)] == [false, true] && t.reg 15 == 1#8) = true := by decide

/-- mem = 80 80 at (0, 31): (0,31) and (0,0) set. -/
theorem test_drw_wraps_down :
    after (exec (.drw 0 1 2) (withBytes 0x300#16 [0x80#8, 0x80#8] (regs [(1, 31#8)])))
      (fun t => pixelsAt t [(0, 31), (0, 0)] == [true, true] && rowCount t 31 == 1) = true := by decide

/-- `D010` with I = 0xFFFF: nothing read or drawn, VF = 0, dirty unchanged, no error. -/
theorem test_drw_no_rows :
    after (exec (.drw 0 1 0) ((regs [(15, 1#8)]).setI 0xFFFF#16))
      (fun t => t.reg 15 == 0#8 && !t.dirty && t.fault == none) = true := by decide

/-- I = 0xFFE, `D013`: MemoryBoundsError(0x1000), VF unchanged. -/
theorem test_drw_out_of_range :
    after (exec (.drw 0 1 3) ((regs [(15, 7#8)]).setI 0xFFE#16))
      (fun t => t.fault == some (.memoryBoundsError 0x1000) && t.reg 15 == 7#8 && t.pc == 0x200#16) = true := by decide

/-! ## Input (95 section 2.7) -/

theorem test_skp : after (exec (.skp 2) (setKeyStatus 7 true (regs [(2, 7#8)]))) (·.pc == 0x204#16) = true ∧
    after (exec (.skp 2) (regs [(2, 7#8)])) (·.pc == 0x202#16) = true := by decide

theorem test_sknp : after (exec (.sknp 2) (regs [(2, 7#8)])) (·.pc == 0x204#16) = true ∧
    after (exec (.sknp 2) (setKeyStatus 7 true (regs [(2, 7#8)]))) (·.pc == 0x202#16) = true := by decide

theorem test_key_skips_refuse_16 :
    refusalOf (exec (.skp 2) (regs [(2, 0x10#8)])) = some (.keyIndexOutOfRange 0x10#8) ∧
    refusalOf (exec (.sknp 2) (regs [(2, 0x10#8)])) = some (.keyIndexOutOfRange 0x10#8) := by decide

theorem test_ldVxK_does_not_sample : after (exec (.ldVxK 3) (setKeyStatus 5 true State.reset))
    (fun t => t.wait == some 3 && t.pc == 0x202#16 && t.reg 3 == 0#8) = true := by decide

/-- wait = some 3, key[4] = key[9] = true, PC = 0x1000: V3 = 4, wait = none, PC unchanged, no fetch. -/
theorem test_wait_takes_lowest_key :
    after (step (((setKeyStatus 9 true (setKeyStatus 4 true State.reset)).setWait (some 3)).setPc 0x1000#16))
      (fun t => t.reg 3 == 4#8 && t.wait == none && t.pc == 0x1000#16 && t.fault == none) = true := by decide

/-! ## Timers (95 section 2.8) -/

theorem test_ldVxDt : after (exec (.ldVxDt 5) (State.reset.setDT 0x2C#8)) (fun t => t.reg 5 == 0x2C#8 && t.DT == 0x2C#8)
    = true := by decide

theorem test_ldDtVx : after (exec (.ldDtVx 5) (regs [(5, 0x3C#8)])) (·.DT == 0x3C#8) = true := by decide

theorem test_ldStVx : after (exec (.ldStVx 0) (regs [(0, 5#8)])) (fun t => t.ST == 5#8 && soundActive t) = true := by decide

theorem test_tick : (tickTimers ((State.reset.setDT 5#8).setST 1#8)).DT = 4#8 ∧
    soundActive (tickTimers ((State.reset.setDT 5#8).setST 1#8)) = false := by decide

/-- S8: 5, then six ticks: 0. -/
theorem test_tick_never_negative : (tickTimers^[6] (State.reset.setDT 5#8)).DT = 0#8 := by decide

/-! ## BCD and register dump (95 section 2.9) -/

/-- S7: 234 gives 2, 3, 4. -/
theorem test_ldB : after (exec (.ldB 0) ((regs [(0, 234#8)]).setI 0x300#16))
    (fun t => [0x300, 0x301, 0x302].map (Memory.read t.mem) == [2#8, 3#8, 4#8] && t.I == 0x300#16) = true := by decide

theorem test_ldB_out_of_range : after (exec (.ldB 0) ((regs [(0, 234#8)]).setI 0xFFE#16))
    (fun t => t.fault == some (.memoryBoundsError 0x1000) && Memory.read t.mem 0xFFE == 0#8) = true := by decide

theorem test_dump : after (exec (.dump 2) ((regs [(0, 0x11#8), (1, 0x22#8), (2, 0x33#8), (3, 0x44#8)]).setI 0x400#16))
    (fun t => [0x400, 0x401, 0x402, 0x403].map (Memory.read t.mem) == [0x11#8, 0x22#8, 0x33#8, 0#8] && t.I == 0x400#16)
      = true := by decide

/-- I = 0x100, V0 = 0x77, `F055`: a write below 0x200 is performed (R58), whatever FONT_BASE is. -/
theorem test_dump_below_0x200 : ∃ t, exec (.dump 0) ((regs [(0, 0x77#8)]).setI 0x100#16) = .next t ∧
    Memory.read t.mem 0x100 = 0x77#8 := ⟨_, rfl, read_write_same (m := []) 0x100 0x77#8 rfl⟩

theorem test_load : after (exec (.load 2) (withBytes 0x300#16 [0x11#8, 0x22#8, 0x33#8, 0x44#8] State.reset))
    (fun t => [0, 1, 2, 3].map t.reg == [0x11#8, 0x22#8, 0x33#8, 0#8] && t.I == 0x300#16) = true := by decide

theorem test_load_out_of_range : after (exec (.load 1) ((regs [(0, 0x77#8)]).setI 0xFFF#16))
    (fun t => t.fault == some (.memoryBoundsError 0x1000) && t.reg 0 == 0x77#8) = true := by decide

/-! ## Sessions -/

theorem test_init_empty_is_reset : initCore [] = .next State.reset := rfl

theorem test_init_installs : after (initCore [0x22#8, 0x00#8]) (fun t => Memory.read t.mem 0x200 == 0x22#8) = true := by decide

/-- A short schedule of P4: FX0A, a key, the poll. -/
theorem test_schedule_key_wait :
    after (runSchedule [.init [0xF3#8, 0x0A#8], .step, .tickTimers, .setKeyStatus 7 true, .step] State.reset)
      (fun t => t.reg 3 == 7#8 && t.pc == 0x202#16 && t.wait == none) = true := by decide

/-! ## Witnesses for the hypotheses of the obligations -/

theorem witness_DecodeOfEncode : (Instr.drw 15 15 15).wellFormed = true := by decide

theorem witness_EncodeOfDecode : decode 0xDFFF#16 = .ok (.drw 15 15 15) := by decide

theorem witness_DecodeAccepts : (∃ r ∈ opcodeMap, r.selects 0xFF65#16 = true) ∧ decode 0xFF65#16 = .ok (.load 15) ∧
    ¬ ∃ r ∈ opcodeMap, r.selects 0x0000#16 = true := by decide

theorem witness_RowsDisjoint : ∃ r ∈ opcodeMap, r.selects 0x8FFE#16 = true := by decide

/-- The last word a fetch can read, at 0xFFE. -/
theorem witness_StepRuns : Fetching (atWord 0xFFE#16 0x60#8 0x01#8) ∧ (atWord 0xFFE#16 0x60#8 0x01#8).pc.toNat + 1 < 4096 ∧
    decode (BitVec.ofNat 16 (wordAtPc (atWord 0xFFE#16 0x60#8 0x01#8))) = .ok (.ldImm 0 1#8) ∧
    (Instr.ldImm 0 1#8).wellFormed = true := ⟨⟨rfl, rfl⟩, by decide, by decide, rfl⟩

theorem witness_FetchOutside : Fetching (State.reset.setPc 0x1000#16) ∧ 4096 ≤ (State.reset.setPc 0x1000#16).pc.toNat ∧
    Fetching (State.reset.setPc 0xFFF#16) ∧ (State.reset.setPc 0xFFF#16).pc.toNat = 4095 :=
  ⟨⟨rfl, rfl⟩, by decide, ⟨rfl, rfl⟩, by decide⟩

theorem witness_IllegalOpcode : Fetching State.reset ∧ State.reset.pc.toNat + 1 < 4096 ∧
    ¬ ∃ r ∈ opcodeMap, r.selects (BitVec.ofNat 16 (wordAtPc State.reset)) = true := ⟨⟨rfl, rfl⟩, by decide, by decide⟩

theorem witness_DeadSession :
    (State.reset.setFault (some (.stackUnderflowError 0x200#16))).fault = some (.stackUnderflowError 0x200#16) ∧
    transact .tickTimers (State.reset.setFault (some (.stackUnderflowError 0x200#16))) =
      .next (State.reset.setFault (some (.stackUnderflowError 0x200#16))) := ⟨rfl, rfl⟩

/-- Both clauses: no key pressed, and key 15 the only (so the lowest) one pressed. -/
theorem witness_WaitingStep :
    (State.reset.setWait (some 15)).fault = none ∧ (State.reset.setWait (some 15)).wait = some 15 ∧
    (∀ k : Fin 16, (State.reset.setWait (some 15)).key.get k = false) ∧
    (setKeyStatus 15 true (State.reset.setWait (some 15))).key.get 15 = true ∧
    (∀ j : Fin 16, j < 15 → (setKeyStatus 15 true (State.reset.setWait (some 15))).key.get j = false) :=
  ⟨rfl, rfl, by decide, by decide, by decide⟩

theorem witness_RaisedFaults : raisedBy State.reset = some (.decodeError 0#16 0x200#16) ∧
    (State.reset.setFault (some (.decodeError 0#16 0x200#16))).fault ≠ State.reset.fault := by decide

/-- One instruction of each kind of check raises. -/
theorem witness_EachInstructionRaises :
    after (exec .ret State.reset) (·.fault == some (.stackUnderflowError 0x200#16)) = true ∧
    after (exec (.call 0#12) (State.reset.setStack (List.replicate 16 0#16)))
      (·.fault == some (.stackOverflowError 0x200#16)) = true ∧
    after (exec (.dump 15) (State.reset.setI 0xFF1#16)) (·.fault == some (.memoryBoundsError 0x1000)) = true := by decide

theorem witness_Refused : refusalOf (exec (.skp 0) (regs [(0, 16#8)])) = some (.keyIndexOutOfRange 16#8) ∧
    refusalOf (exec (.sknp 0) (regs [(0, 255#8)])) = some (.keyIndexOutOfRange 255#8) ∧
    refusalOf (exec (.ldF 0) (regs [(0, 16#8)])) = some (.fontDigitOutOfRange 16#8) := by decide

/-- The reset state meets the invariant and steps; so does a full stack with the pc at the top of its range. -/
theorem witness_Invariant :
    (MachineInv State.reset ∧ ∃ t, step State.reset = .next t) ∧
    MachineInv ((State.reset.setStack (List.replicate 16 0x1000#16)).setPc 0x10FE#16) := by
  refine ⟨⟨⟨rfl, by decide, by simp [State.reset], by simp [State.reset]⟩, _, rfl⟩, rfl, by simp, ?_, by simp⟩
  intro v hv
  rw [List.eq_of_mem_replicate hv]
  decide

theorem witness_Schedule : ∃ t, runSchedule [.tickTimers, .setKeyStatus 15 true, .consumeDirty, .init [], .step] State.reset
    = .next t := ⟨_, rfl⟩

/-- Each part that a writer changes, changed by it. -/
theorem witness_Writers :
    after (exec (.call 0x300#12) State.reset) (fun t => decide (t.stack ≠ State.reset.stack)) = true ∧
    after (exec (.drw 0 0 1) (withBytes 0x300#16 [0x80#8] State.reset)) (fun t => decide (t.fb ≠ State.reset.fb)) = true ∧
    after (exec (.ldI 1#12) State.reset) (fun t => decide (t.I ≠ State.reset.I)) = true ∧
    after (exec (.dump 0) ((regs [(0, 1#8)]).setI 0x300#16)) (fun t => decide (t.mem ≠ State.reset.mem)) = true ∧
    after (exec (.ldDtVx 0) (regs [(0, 1#8)])) (fun t => decide (t.DT ≠ State.reset.DT)) = true ∧
    after (exec (.ldStVx 0) (regs [(0, 1#8)])) (fun t => decide (t.ST ≠ State.reset.ST)) = true ∧
    after (exec (.ldVxK 0) State.reset) (fun t => decide (t.wait ≠ State.reset.wait)) = true := by decide

theorem witness_Dirty : after (exec .cls State.reset) (fun t => decide (t.dirty ≠ State.reset.dirty)) = true ∧
    after (step ((atWord 0x200#16 0x12#8 0x00#8).setDirty true)) (·.dirty) = true := by decide

theorem witness_VfChanges : after (exec (.addReg 0 1) (regs [(0, 0xFF#8), (1, 1#8)])) (fun t => decide (t.reg 15 ≠ 0#8)) = true ∧
    after (exec (.ldImm 15 1#8) State.reset) (fun t => decide (t.reg 15 ≠ 0#8)) = true := by decide

/-- Both clauses: a raising and a completing instruction from a live state. -/
theorem witness_PcAfter : State.reset.fault = none ∧ after (exec .ret State.reset) (fun t => decide (t.fault ≠ none)) = true ∧
    after (exec (.ldI 0#12) State.reset) (fun t => decide (t.fault = none)) = true := by decide

theorem witness_SoundTimer : (∃ t, exec (.ldStVx 0) State.reset = .next t) ∧ ∃ t, exec (.ldI 0#12) State.reset = .next t :=
  ⟨⟨_, rfl⟩, _, rfl⟩

/-- 15 entries and 16 entries. -/
theorem witness_Call : (State.reset.setStack (List.replicate 15 0#16)).stack.length < 16 ∧
    16 ≤ (State.reset.setStack (List.replicate 16 0#16)).stack.length := by decide

theorem witness_Ret : (State.reset.setStack [0x206#16, 0x30A#16]).stack = [0x206#16] ++ [0x30A#16] ∧ State.reset.stack = [] :=
  ⟨rfl, rfl⟩

/-- The last digit with a glyph, and the first without. -/
theorem witness_LdF : ((regs [(3, 15#8)]).reg 3).toNat ≤ 15 ∧ 15 < ((regs [(3, 16#8)]).reg 3).toNat := by decide

/-- 15 rows that just fit, no rows at the top of I, and one row too many. -/
theorem witness_Drw : (15 < 16 ∧ (State.reset.setI 0xFF1#16).I.toNat + 15 ≤ 4096) ∧
    ((0 : Nat) = 0 ∨ (State.reset.setI 0xFFFF#16).I.toNat + 0 ≤ 4096) ∧
    (15 ≠ 0 ∧ 4096 < (State.reset.setI 0xFF2#16).I.toNat + 15) := by decide

/-- A draw at x0 = 63 with bit 6 of row 0 set, its coordinates unchanged by the draw. -/
theorem witness_DrawTwice :
    after (exec (.drw 0 1 1) (withBytes 0x300#16 [0xC3#8] (regs [(0, 63#8), (1, 31#8)])))
      (fun t => t.reg 0 == 63#8 && t.reg 1 == 31#8) = true ∧
    (withBytes 0x300#16 [0xC3#8] (regs [(0, 63#8), (1, 31#8)])).I.toNat + 1 ≤ 4096 ∧
    ((withBytes 0x300#16 [0xC3#8] (regs [(0, 63#8), (1, 31#8)])).reg 0).toNat = 63 ∧
    (Memory.read (withBytes 0x300#16 [0xC3#8] (regs [(0, 63#8), (1, 31#8)])).mem 0x300).getLsbD 6 = true := by decide

theorem witness_KeySkips : ((regs [(2, 15#8)]).reg 2).toNat = (15 : Fin 16).val ∧
    ((regs [(2, 0#8)]).reg 2).toNat = (0 : Fin 16).val ∧ 15 < ((regs [(2, 16#8)]).reg 2).toNat := by decide

/-- Memory canonical; the last base with three bytes, and the first without. -/
theorem witness_LdB : Memory.wf State.reset.mem = true ∧ (State.reset.setI 0xFFD#16).I.toNat + 2 < 4096 ∧
    4096 ≤ (State.reset.setI 0xFFE#16).I.toNat + 2 := by decide

theorem witness_Dump : Memory.wf State.reset.mem = true ∧ (State.reset.setI 0xFF0#16).I.toNat + (15 : Reg).val < 4096 ∧
    4096 ≤ (State.reset.setI 0xFF1#16).I.toNat + (15 : Reg).val := by decide

theorem witness_Load : (State.reset.setI 0xFFF#16).I.toNat + (0 : Reg).val < 4096 ∧
    4096 ≤ (State.reset.setI 0xFFF#16).I.toNat + (1 : Reg).val := by decide

/-- A dump of the word 6A3C onto the next instruction. -/
theorem witness_NextFetch :
    Memory.wf (regs [(0, 0x6A#8), (1, 0x3C#8)]).mem = true ∧ Fetching ((regs [(0, 0x6A#8), (1, 0x3C#8)]).setI 0x202#16) ∧
    (1 : Reg).val + 0x202 < 4096 ∧ (0x202#16 : Word) = State.reset.pc + 2#16 ∧
    (∃ t, exec (.dump 1) ((regs [(0, 0x6A#8), (1, 0x3C#8)]).setI 0x202#16) = .next t) ∧
    decode (BitVec.ofNat 16 (256 * 0x6A + 0x3C)) = .ok (.ldImm 10 0x3C#8) :=
  ⟨rfl, ⟨rfl, rfl⟩, by decide, rfl, ⟨_, rfl⟩, by decide⟩

/-- The longest image that fits, and the shortest that does not. -/
theorem witness_Init : (List.replicate 3584 (0#8 : Byte)).length ≤ 3584 ∧ 3584 < (List.replicate 3585 (0#8 : Byte)).length := by
  refine ⟨le_of_eq List.length_replicate, ?_⟩
  rw [List.length_replicate]
  decide

theorem witness_Ticks : State.reset.fault = none ∧ (State.reset.setFault (some (.memoryBoundsError 4096))).fault ≠ none := by
  decide

end Sys2Proof.Tests
end

section
/-! The invariant of the machine along every schedule: how each update of the state keeps `MachineInv`, then each
instruction, each step, each transaction, and by induction every list of transactions. -/

namespace Sys2Proof.Machine

/-- A range store that succeeds keeps the canonical form of memory. -/
theorem wf_of_writeRange_ok {m m' : Memory} {base : Nat} {bs : List Byte} (h : writeRange m base bs = .ok m')
    (hm : Memory.wf m = true) : Memory.wf m' = true := by
  by_cases hfit : bs = [] ∨ base + bs.length ≤ 4096
  · obtain ⟨m₁, hok, hwf, -⟩ := writeRange_ok m bs hfit
    cases hok.symm.trans h
    exact hwf hm
  · obtain ⟨hne, hout⟩ := not_or.mp hfit
    cases (writeRange_error m bs hne (Nat.lt_of_not_le hout)).symm.trans h

/-- A re-initialisation that is not refused answers the reset state with some canonical memory, the counter of draws
running on. -/
theorem initFrom_next {rom : List Byte} {s t : State} (h : initFrom rom s = .next t) :
    ∃ m, Memory.wf m = true ∧ t = (State.reset.setMem m).setDraws s.draws := by
  unfold initFrom initCore at h
  cases hw : writeRange State.reset.mem Config.progOrigin rom with
  | error e => rw [hw] at h; cases h
  | ok m =>
    rw [hw] at h
    cases h
    exact ⟨m, wf_of_writeRange_ok hw wf_nil, rfl⟩

/-- A collaborator's transaction that is not refused has its own effect. -/
theorem unlessDead_next {s t u : State} (h : unlessDead s t = .next u) : u = t := by
  unfold unlessDead at h
  split at h <;> cases h
  rfl

/-- A poll leaves the state alone, or writes the waiting register and ends the wait. -/
theorem waitPoll_cases (r : Reg) (s : State) :
    waitPoll r s = s ∨ ∃ b, waitPoll r s = (s.setReg r b).setWait none := by
  unfold waitPoll
  split
  · exact .inr ⟨_, rfl⟩
  · exact .inl rfl

/-- A tick changes at most the two timers. -/
theorem tickTimers_cases (s : State) : tickTimers s = s ∨ ∃ d b, tickTimers s = (s.setDT d).setST b := by
  unfold tickTimers
  split
  · exact .inl rfl
  · exact .inr ⟨_, _, rfl⟩

/-- The advance of a pc inside memory, or just past it, does not wrap. -/
theorem pc_add_two_toNat {pc : Word} (h : pc.toNat ≤ 0x1000) : (pc + 2#16).toNat = pc.toNat + 2 := by
  rw [BitVec.toNat_add, BitVec.toNat_ofNat]
  omega

/-- A property that every transaction keeps holds at the end of every schedule that starts with it. -/
theorem runSchedule_keeps {P : State → Prop}
    (hP : ∀ (tr : Transaction) (s t : State), P s → transact tr s = .next t → P t) (trs : List Transaction)
    {s t : State} (hs : P s) (h : runSchedule trs s = .next t) : P t := by
  induction trs generalizing s with
  | nil => cases h; exact hs
  | cons tr trs ih =>
    rw [runSchedule] at h
    cases htr : transact tr s with
    | next u => rw [htr] at h; exact ih (hP tr s u hs htr) h
    | fault e => rw [htr] at h; cases h
    | refused r => rw [htr] at h; cases h

end Sys2Proof.Machine

namespace Sys2Proof.Safety

open Sys2Proof.Machine

/-! The invariant and the updates of the state -/

/-- The invariant speaks of memory, stack and pc only. -/
theorem machineInv_congr {s t : State} (hs : MachineInv s) (hmem : t.mem = s.mem) (hstack : t.stack = s.stack)
    (hpc : t.pc = s.pc) : MachineInv t := by
  rw [MachineInv, hmem, hstack, hpc]
  exact hs

theorem machineInv_setPc {s : State} {w : Word} (hs : MachineInv s) (hw : w.toNat ≤ 0x10FE) :
    MachineInv (s.setPc w) := by
  obtain ⟨hmem, hlen, hret, -⟩ := hs
  exact ⟨hmem, hlen, hret, hw⟩

theorem machineInv_setMem {s : State} {m : Memory} (hs : MachineInv s) (hm : Memory.wf m = true) :
    MachineInv (s.setMem m) := by
  obtain ⟨-, hlen, hret, hpc⟩ := hs
  exact ⟨hm, hlen, hret, hpc⟩

theorem machineInv_advance {s : State} (hs : MachineInv s) (hpc : s.pc.toNat ≤ 0x1000) : MachineInv s.advance :=
  machineInv_setPc hs (by rw [pc_add_two_toNat hpc]; omega)

/-- Pushing a return address within range keeps the invariant when the stack is not full (R28). -/
theorem machineInv_push {s : State} {v : Word} (hs : MachineInv s) (hlen : s.stack.length < 16)
    (hv : v.toNat ≤ 0x1000) : MachineInv (s.setStack (s.stack ++ [v])) := by
  obtain ⟨hmem, -, hret, hpc⟩ := hs
  refine ⟨hmem, by simpa using hlen, fun w hw => ?_, hpc⟩
  rcases List.mem_append.mp hw with hw | hw
  · exact hret w hw
  · rw [List.mem_singleton.mp hw]
    exact hv

/-- Popping keeps the invariant, and the popped return address is within range (R25). -/
theorem machineInv_pop {s : State} {v : Word} {st : List Word} (hs : MachineInv s) (hst : s.stack = st ++ [v]) :
    MachineInv (s.setStack st) ∧ v.toNat ≤ 0x1000 := by
  obtain ⟨hmem, hlen, hret, hpc⟩ := hs
  rw [hst] at hlen hret
  rw [List.length_append] at hlen
  exact ⟨⟨hmem, by simp only [State.setStack_stack]; omega, fun w hw => hret w (List.mem_append_left _ hw), hpc⟩,
    hret v (by simp)⟩

theorem machineInv_reset : MachineInv State.reset :=
  ⟨wf_nil, Nat.zero_le 16, fun v hv => absurd hv List.not_mem_nil, by decide⟩

/-! Instructions -/

/-- The own effect of an instruction keeps the invariant. A fetched instruction lies inside memory, so after the advance
the pc is at most 0x1000 (what CALL pushes) and after a skip at most 0x1002; a jump ends at most at 0xFFF, and with V0
added at most at 0x10FE (R25). -/
theorem effect_keeps_machineInv {i : Instr} {s t : State} (hs : MachineInv s) (hpc : s.pc.toNat + 1 < 4096)
    (h : Effect i s t) : MachineInv t := by
  have hret : s.advance.pc.toNat ≤ 0x1000 := by
    rw [State.advance_pc, pc_add_two_toNat (by omega)]
    omega
  have hadv : MachineInv s.advance := machineInv_advance hs (by omega)
  cases i with
  | ret =>
    obtain ⟨v, st, hst, rfl⟩ := h
    obtain ⟨hs', hv⟩ := machineInv_pop hs hst
    exact machineInv_setPc hs' (by omega)
  | call nnn =>
    obtain ⟨hlen, rfl⟩ := h
    have := nnn.isLt
    exact machineInv_setPc (machineInv_push hs hlen hret) (by rw [zextAddr_toNat]; omega)
  | jp nnn =>
    have := nnn.isLt
    exact h ▸ machineInv_setPc hs (by rw [zextAddr_toNat]; omega)
  | jpV0 nnn =>
    have := nnn.isLt
    have := (s.reg V0).isLt
    exact h ▸ machineInv_setPc hs (by rw [offsetTarget_toNat]; omega)
  | seImm | sneImm | seReg | sneReg | skp | sknp =>
    rcases h with rfl | rfl
    · exact hadv
    · exact machineInv_advance hadv hret
  | ldB | dump =>
    obtain ⟨m, hwf, rfl⟩ := h
    exact machineInv_setMem hadv (hwf hs.1)
  | cls | ldI | ldVxK | ldDtVx | ldStVx =>
    cases h
    exact machineInv_congr hadv rfl rfl rfl
  | ldImm | addImm | ldReg | orReg | andReg | xorReg | ldVxDt | addI | ldF | rnd =>
    obtain ⟨_, rfl⟩ := h
    exact machineInv_congr hadv rfl rfl rfl
  | addReg | subReg | subn | shr | shl =>
    obtain ⟨_, _, rfl⟩ := h
    exact machineInv_congr hadv rfl rfl rfl
  | load =>
    obtain ⟨bs, -, rfl⟩ := h
    exact machineInv_congr hadv rfl rfl rfl
  | drw =>
    obtain ⟨x0, y0, rows, rfl⟩ := h
    exact machineInv_congr hadv rfl rfl rfl

/-! Steps, transactions, schedules -/

/-- Every step keeps the invariant. -/
theorem step_keeps_machineInv {s t : State} (hs : MachineInv s) (h : step s = .next t) : MachineInv t := by
  rcases step_next_cases h with ⟨-, rfl⟩ | ⟨-, r, -, rfl⟩ | ⟨-, e, -, rfl⟩ | ⟨-, hpc, i, -, hexec⟩
  · exact hs
  · rcases waitPoll_cases r s with heq | ⟨b, heq⟩ <;> rw [heq]
    · exact hs
    · exact machineInv_congr hs rfl rfl rfl
  · exact machineInv_congr hs rfl rfl rfl
  · rcases exec_next_cases hexec with ⟨e, rfl⟩ | heff
    · exact machineInv_congr hs rfl rfl rfl
    · exact effect_keeps_machineInv hs hpc heff

/-- Every transaction of a session keeps the invariant. -/
theorem transact_keeps_machineInv (tr : Transaction) (s t : State) (hs : MachineInv s)
    (h : transact tr s = .next t) : MachineInv t := by
  cases tr with
  | step => exact step_keeps_machineInv hs h
  | tickTimers =>
    cases h
    rcases tickTimers_cases s with heq | ⟨d, b, heq⟩ <;> rw [heq]
    · exact hs
    · exact machineInv_congr hs rfl rfl rfl
  | setKeyStatus k pressed => exact unlessDead_next h ▸ machineInv_congr hs rfl rfl rfl
  | consumeDirty => exact unlessDead_next h ▸ machineInv_congr hs rfl rfl rfl
  | init rom =>
    obtain ⟨m, hm, rfl⟩ := initFrom_next h
    exact machineInv_congr (machineInv_setMem machineInv_reset hm) rfl rfl rfl

/-- Settles O16, by induction on the schedule: every transaction keeps the invariant. -/
theorem everyScheduleKeepsTheInvariant : Obligations.EveryScheduleKeepsTheInvariant := by
  unfold Obligations.EveryScheduleKeepsTheInvariant
  intro trs s t hs h
  exact runSchedule_keeps transact_keeps_machineInv trs hs h

end Sys2Proof.Safety
end

section
/-! What each instruction may write: the registers and the parts of the state, as one table, and the frame of every
instruction, which the rules of the whole machine are read off. -/

namespace Sys2Proof.Safety

open Sys2Proof.Machine

/-- The general registers an instruction may write when it raises nothing (10_state.md R20, R38). -/
def writtenRegs : Instr → List Reg
  | .ldImm x _ | .addImm x _ | .rnd x _ | .ldReg x _ | .orReg x _ | .andReg x _ | .xorReg x _ | .ldVxDt x => [x]
  | .addReg x _ | .subReg x _ | .subn x _ | .shr x _ | .shl x _ => [x, 15]
  | .drw _ _ _ => [15]
  | .load x => (List.finRange 16).filter (fun k => k ≤ x)
  | .cls | .ret | .jp _ | .call _ | .jpV0 _ | .seImm _ _ | .sneImm _ _ | .seReg _ _ | .sneReg _ _ | .skp _ | .sknp _
  | .ldI _ | .addI _ | .ldF _ | .ldVxK _ | .ldDtVx _ | .ldStVx _ | .ldB _ | .dump _ => []

/-- The other parts an instruction may write when it raises nothing (10_state.md R22 to R34, 20_memory.md R54). -/
def writtenParts : Instr → List Part
  | .ret | .call _ => [.stack]
  | .cls | .drw _ _ _ => [.fb, .dirty]
  | .ldI _ | .addI _ | .ldF _ => [.I]
  | .ldB _ | .dump _ => [.mem]
  | .ldDtVx _ => [.DT]
  | .ldStVx _ => [.ST]
  | .ldVxK _ => [.wait]
  | .rnd _ _ => [.draws]
  | .jp _ | .jpV0 _ | .seImm _ _ | .sneImm _ _ | .seReg _ _ | .sneReg _ _ | .skp _ | .sknp _ | .ldImm _ _
  | .addImm _ _ | .ldReg _ _ | .orReg _ _ | .andReg _ _ | .xorReg _ _ | .addReg _ _ | .subReg _ _ | .shr _ _
  | .subn _ _ | .shl _ _ | .ldVxDt _ | .load _ => []

/-! Reading the table backwards: the only writers of a part -/

section writers
variable {i : Instr}

theorem stack_mem_writtenParts : .stack ∈ writtenParts i ↔ i = .ret ∨ ∃ nnn, i = .call nnn := by
  cases i <;> simp [writtenParts]

theorem fb_mem_writtenParts : .fb ∈ writtenParts i ↔ i = .cls ∨ ∃ x y n, i = .drw x y n := by
  cases i <;> simp [writtenParts]

theorem dirty_mem_writtenParts : .dirty ∈ writtenParts i ↔ i = .cls ∨ ∃ x y n, i = .drw x y n := by
  cases i <;> simp [writtenParts]

theorem I_mem_writtenParts :
    .I ∈ writtenParts i ↔ (∃ nnn, i = .ldI nnn) ∨ (∃ x, i = .addI x) ∨ ∃ x, i = .ldF x := by
  cases i <;> simp [writtenParts]

theorem mem_mem_writtenParts : .mem ∈ writtenParts i ↔ (∃ x, i = .ldB x) ∨ ∃ x, i = .dump x := by
  cases i <;> simp [writtenParts]

theorem DT_mem_writtenParts : .DT ∈ writtenParts i ↔ ∃ x, i = .ldDtVx x := by
  cases i <;> simp [writtenParts]

theorem ST_mem_writtenParts : .ST ∈ writtenParts i ↔ ∃ x, i = .ldStVx x := by
  cases i <;> simp [writtenParts]

theorem wait_mem_writtenParts : .wait ∈ writtenParts i ↔ ∃ x, i = .ldVxK x := by
  cases i <;> simp [writtenParts]

theorem key_not_mem_writtenParts : .key ∉ writtenParts i := by
  cases i <;> simp [writtenParts]

theorem fault_not_mem_writtenParts : .fault ∉ writtenParts i := by
  cases i <;> simp [writtenParts]

end writers

/-! The frame of an instruction -/

theorem changesOnly_mono {regs regs' : List Reg} {parts parts' : List Part} {s t : State}
    (hregs : regs ⊆ regs') (hparts : parts ⊆ parts') (h : ChangesOnly regs parts s t) :
    ChangesOnly regs' parts' s t := by
  obtain ⟨hreg, hI, hDT, hST, hstack, hmem, hfb, hdirty, hkey, hwait, hfault, hdraws⟩ := h
  exact ⟨fun k hk => hreg k (mt (@hregs k) hk), fun hp => hI (mt (@hparts _) hp), fun hp => hDT (mt (@hparts _) hp),
    fun hp => hST (mt (@hparts _) hp), fun hp => hstack (mt (@hparts _) hp), fun hp => hmem (mt (@hparts _) hp),
    fun hp => hfb (mt (@hparts _) hp), fun hp => hdirty (mt (@hparts _) hp), fun hp => hkey (mt (@hparts _) hp),
    fun hp => hwait (mt (@hparts _) hp), fun hp => hfault (mt (@hparts _) hp), fun hp => hdraws (mt (@hparts _) hp)⟩

/-- The counter of draws and one register. -/
theorem changesOnly_setReg_setDraws (s : State) (n : Nat) (r : Reg) (b : Byte) :
    ChangesOnly [r] [.draws] s ((s.setDraws n).advance.setReg r b) :=
  changesOnly_trans (t := s.setDraws n) (by simp [ChangesOnly])
    (changesOnly_mono (List.Subset.refl _) (List.nil_subset _)
      (changesOnly_setReg (s.setDraws n) r b (List.mem_singleton_self r)))

/-- A draw writes VF, the buffer and the dirty flag. -/
theorem changesOnly_drawRows (x0 y0 : Nat) (rows : List Byte) (s : State) :
    ChangesOnly [15] [.fb, .dirty] s (drawRows x0 y0 rows s.advance) := by
  refine ⟨fun k hk => ?_, by simp [drawRows]⟩
  have hf : k ≠ VF := List.ne_of_not_mem_cons hk
  simp [drawRows, hf]

/-- Loading `x + 1` bytes from V0 on writes no register above Vx. -/
theorem changesOnly_regsLoaded (s : State) {x : Reg} {bs : List Byte} (hlen : bs.length = x.val + 1) :
    ChangesOnly ((List.finRange 16).filter (fun k => k ≤ x)) [] s (s.advance.setV (regsLoaded s.V bs)) := by
  refine ⟨fun k hk => ?_, by simp⟩
  have hx : x.val < k.val := by simpa using hk
  have hk' : bs.length ≤ k.val := by omega
  rw [State.reg_setV, regsLoaded_get, List.getD_eq_default _ _ hk']
  rfl

/-- The own effect of an instruction changes nothing outside the table. -/
theorem effect_changesOnly {i : Instr} {s t : State} (h : Effect i s t) :
    ChangesOnly (writtenRegs i) (writtenParts i) s t := by
  cases i with
  | jp | jpV0 =>
    cases h
    exact changesOnly_setPc s _
  | seImm | sneImm | seReg | sneReg | skp | sknp =>
    rcases h with rfl | rfl
    · exact changesOnly_advance s
    · exact changesOnly_trans (changesOnly_advance s) (changesOnly_advance _)
  | ldImm x | addImm x | ldReg x | orReg x | andReg x | xorReg x | ldVxDt x =>
    obtain ⟨b, rfl⟩ := h
    exact changesOnly_setReg s x b (List.mem_singleton_self x)
  | addReg x | subReg x | subn x | shr x | shl x =>
    obtain ⟨b, f, rfl⟩ := h
    exact changesOnly_setReg_flag s x b f
  | rnd x =>
    obtain ⟨b, rfl⟩ := h
    exact changesOnly_setReg_setDraws s _ x b
  | drw =>
    obtain ⟨x0, y0, rows, rfl⟩ := h
    exact changesOnly_drawRows x0 y0 rows s
  | load =>
    obtain ⟨bs, hlen, rfl⟩ := h
    exact changesOnly_regsLoaded s hlen
  | ret =>
    obtain ⟨v, st, -, rfl⟩ := h
    simp [ChangesOnly, writtenParts]
  | call =>
    obtain ⟨-, rfl⟩ := h
    simp [ChangesOnly, writtenParts]
  | cls | ldI | ldVxK | ldDtVx | ldStVx =>
    cases h
    simp [ChangesOnly, writtenParts]
  | addI | ldF =>
    obtain ⟨w, rfl⟩ := h
    simp [ChangesOnly, writtenParts]
  | ldB | dump =>
    obtain ⟨m, -, rfl⟩ := h
    simp [ChangesOnly, writtenParts]

/-- An instruction that answers a next state changes nothing outside the table but the fault status. -/
theorem exec_changesOnly {i : Instr} {s t : State} (h : exec i s = .next t) :
    ChangesOnly (writtenRegs i) (.fault :: writtenParts i) s t := by
  rcases exec_next_cases h with ⟨e, rfl⟩ | heff
  · simp [ChangesOnly]
  · exact changesOnly_mono (List.Subset.refl _) (List.subset_cons_self _ _) (effect_changesOnly heff)

/-- Memory itself, not only what it reads as, is left alone by every instruction but the two stores. -/
theorem effect_mem_eq {i : Instr} {s t : State} (h : Effect i s t) (hi : .mem ∉ writtenParts i) : t.mem = s.mem := by
  cases i with
  | ldB | dump => exact absurd (List.mem_singleton_self _) hi
  | cls | jp | jpV0 | ldI | ldVxK | ldDtVx | ldStVx =>
    cases h
    rfl
  | seImm | sneImm | seReg | sneReg | skp | sknp => rcases h with rfl | rfl <;> rfl
  | call =>
    obtain ⟨-, rfl⟩ := h
    rfl
  | ret =>
    obtain ⟨_, _, -, rfl⟩ := h
    rfl
  | ldImm | addImm | ldReg | orReg | andReg | xorReg | ldVxDt | addI | ldF | rnd =>
    obtain ⟨_, rfl⟩ := h
    rfl
  | addReg | subReg | subn | shr | shl =>
    obtain ⟨_, _, rfl⟩ := h
    rfl
  | load =>
    obtain ⟨_, -, rfl⟩ := h
    rfl
  | drw =>
    obtain ⟨_, _, _, rfl⟩ := h
    rfl

theorem exec_mem_eq {i : Instr} {s t : State} (h : exec i s = .next t) (hi : .mem ∉ writtenParts i) :
    t.mem = s.mem := by
  rcases exec_next_cases h with ⟨e, rfl⟩ | heff
  · rfl
  · exact effect_mem_eq heff hi

/-- The own effect of an instruction never clears the dirty flag: CLS sets it, DRW adds to it. -/
theorem effect_keeps_dirty {i : Instr} {s t : State} (h : Effect i s t) (hd : s.dirty = true) : t.dirty = true := by
  by_cases hw : .dirty ∈ writtenParts i
  · obtain rfl | ⟨x, y, n, rfl⟩ := dirty_mem_writtenParts.mp hw
    · cases h
      rfl
    · obtain ⟨x0, y0, rows, rfl⟩ := h
      simp [drawRows, hd]
  · obtain ⟨-, -, -, -, -, -, -, hdirty, -, -, -, -⟩ := effect_changesOnly h
    exact (hdirty hw).trans hd

theorem exec_keeps_dirty {i : Instr} {s t : State} (h : exec i s = .next t) (hd : s.dirty = true) :
    t.dirty = true := by
  rcases exec_next_cases h with ⟨e, rfl⟩ | heff
  · exact hd
  · exact effect_keeps_dirty heff hd

theorem exec_key_eq {i : Instr} {s t : State} (h : exec i s = .next t) : t.key = s.key := by
  obtain ⟨-, -, -, -, -, -, -, -, hkey, -, -, -⟩ := exec_changesOnly h
  exact hkey (by simp [key_not_mem_writtenParts])

/-- The instructions that may write VF (R38). -/
theorem VF_mem_writtenRegs {i : Instr} (h : 15 ∈ writtenRegs i) :
    (∃ x y, i = .addReg x y ∨ i = .subReg x y ∨ i = .subn x y ∨ i = .shr x y ∨ i = .shl x y) ∨
    (∃ x y n, i = .drw x y n) ∨
    (∃ nn, i = .ldImm 15 nn ∨ i = .addImm 15 nn ∨ i = .rnd 15 nn) ∨
    (∃ y, i = .ldReg 15 y ∨ i = .orReg 15 y ∨ i = .andReg 15 y ∨ i = .xorReg 15 y) ∨
    i = .ldVxDt 15 ∨ i = .load 15 := by
  cases i with
  | load x =>
    have hx : (15 : Reg) ≤ x := by simpa [writtenRegs] using h
    rw [Fin.le_antisymm (Fin.le_last x) hx]
    simp
  | ldImm | addImm | rnd | ldReg | orReg | andReg | xorReg | ldVxDt =>
    obtain rfl := List.mem_singleton.mp h
    simp
  | addReg | subReg | subn | shr | shl | drw => simp
  | _ => cases h

/-! The pc after an instruction -/

/-- The instructions that neither jump nor skip. -/
def straightLine : Instr → Bool
  | .ret | .jp _ | .call _ | .jpV0 _ | .seImm _ _ | .sneImm _ _ | .seReg _ _ | .sneReg _ _ | .skp _ | .sknp _ => false
  | _ => true

/-- An instruction that neither jumps nor skips advances the pc once (40_step_cycle.md R92). -/
theorem effect_pc_of_straightLine {i : Instr} {s t : State} (hi : straightLine i = true) (h : Effect i s t) :
    t.pc = s.pc + 2#16 := by
  cases i with
  | ret | jp | call | jpV0 | seImm | sneImm | seReg | sneReg | skp | sknp => cases hi
  | cls | ldI | ldVxK | ldDtVx | ldStVx =>
    cases h
    rfl
  | ldImm | addImm | ldReg | orReg | andReg | xorReg | ldVxDt | addI | ldF | rnd =>
    obtain ⟨_, rfl⟩ := h
    rfl
  | addReg | subReg | subn | shr | shl =>
    obtain ⟨_, _, rfl⟩ := h
    rfl
  | ldB | dump | load =>
    obtain ⟨_, -, rfl⟩ := h
    rfl
  | drw =>
    obtain ⟨_, _, _, rfl⟩ := h
    rfl

/-- A skip that skips leaves the pc four bytes on (43_control_flow.md R148). -/
theorem advance_advance_pc (s : State) : s.advance.advance.pc = s.pc + 4#16 := by
  rw [State.advance_pc, State.advance_pc, BitVec.add_assoc]
  rfl

/-- The pc after each instruction that raises nothing (R24). -/
theorem effect_pc {i : Instr} {s t : State} (h : Effect i s t) :
    (∃ nnn, (i = .jp nnn ∨ i = .call nnn) ∧ t.pc.toNat = nnn.toNat) ∨
    (i = .ret ∧ s.stack.getLast? = some t.pc) ∨
    (∃ nnn, i = .jpV0 nnn ∧ t.pc.toNat = nnn.toNat + (s.reg 0).toNat) ∨
    (t.pc = s.pc + 4#16 ∧
      ((∃ x nn, i = .seImm x nn ∨ i = .sneImm x nn) ∨ (∃ x y, i = .seReg x y ∨ i = .sneReg x y) ∨
       ∃ x, i = .skp x ∨ i = .sknp x)) ∨
    (t.pc = s.pc + 2#16 ∧ i ≠ .ret ∧ ∀ nnn, i ≠ .jp nnn ∧ i ≠ .call nnn ∧ i ≠ .jpV0 nnn) := by
  cases i with
  | jp nnn =>
    cases h
    exact .inl ⟨nnn, .inl rfl, zextAddr_toNat nnn⟩
  | call nnn =>
    obtain ⟨-, rfl⟩ := h
    exact .inl ⟨nnn, .inr rfl, zextAddr_toNat nnn⟩
  | ret =>
    obtain ⟨v, st, hst, rfl⟩ := h
    exact .inr (.inl ⟨rfl, by simp [hst]⟩)
  | jpV0 nnn =>
    cases h
    exact .inr (.inr (.inl ⟨nnn, rfl, offsetTarget_toNat nnn (s.reg 0)⟩))
  | seImm | sneImm | seReg | sneReg | skp | sknp =>
    rcases h with rfl | rfl
    · exact .inr (.inr (.inr (.inr ⟨rfl, nofun, fun _ => ⟨nofun, nofun, nofun⟩⟩)))
    · exact .inr (.inr (.inr (.inl ⟨advance_advance_pc s, by simp⟩)))
  | _ => exact .inr (.inr (.inr (.inr ⟨effect_pc_of_straightLine rfl h, nofun, fun _ => ⟨nofun, nofun, nofun⟩⟩)))

end Sys2Proof.Safety
end

section
/-! The sound timer: every instruction but FX18 commutes with replacing ST. -/

namespace Sys2Proof.Machine

/-- A result with ST replaced in its next state. -/
def resultSetST (b : Byte) : Result → Result
  | .next t => .next (t.setST b)
  | .fault e => .fault e
  | .refused r => .refused r

theorem skipIf_setST (c : Bool) (s : State) (b : Byte) : skipIf c (s.setST b) = resultSetST b (skipIf c s) := by
  cases c <;> rfl

theorem storeAtI_setST (bs : List Byte) (s : State) (b : Byte) :
    storeAtI bs (s.setST b) = resultSetST b (storeAtI bs s) := by
  simp only [storeAtI, State.setST_mem, State.base, State.setST_I]
  cases writeRange s.mem s.I.toNat bs <;> rfl

/-- Every instruction but FX18 does the same whatever ST holds, and leaves it as it was (R27). -/
theorem exec_setST {i : Instr} (hi : ∀ x, i ≠ .ldStVx x) (s : State) (b : Byte) :
    exec i (s.setST b) = resultSetST b (exec i s) := by
  cases i with
  | ldStVx x => exact absurd rfl (hi x)
  | seImm | sneImm | seReg | sneReg => exact skipIf_setST _ s b
  | ldB | dump => exact storeAtI_setST _ s b
  | ret =>
    simp only [exec, execRet, State.setST_stack]
    cases popStack s.stack <;> rfl
  | call =>
    simp only [exec, execCall, State.setST_stack, State.advance_pc, State.setST_pc]
    cases pushStack s.stack (s.pc + 2#16) <;> rfl
  | skp x | sknp x =>
    simp only [exec, execSkp, execSknp, State.reg_setST]
    cases keyIndex (s.reg x)
    · rfl
    · exact skipIf_setST _ s b
  | ldF x =>
    simp only [exec, execLdF, State.reg_setST]
    cases glyphAddr (s.reg x) <;> rfl
  | drw x y n =>
    simp only [exec, execDrw, State.setST_mem, State.base, State.setST_I]
    cases readRange s.mem s.I.toNat n <;> rfl
  | load x =>
    simp only [exec, execLoad, State.setST_mem, State.base, State.setST_I]
    cases readRange s.mem s.I.toNat (x.val + 1) <;> rfl
  | _ => rfl

end Sys2Proof.Machine
end

section
/-! What the reset state reads as: registers, keys, and the two regions of Memory. -/

namespace Sys2Proof.Machine

theorem fontData_length : fontData.length = 80 := rfl

/-- At reset the font bytes stand at FONT_BASE: the font lies wholly below 0x200 (44_memory_index.md R164). -/
theorem resetByte_font (j : Nat) (h : j < fontData.length) :
    resetByte (Config.fontBase.val + j) = fontData[j] := by
  have hj : j < 80 := fontData_length ▸ h
  have hbase := Config.fontBase_bound
  rw [resetByte, if_pos (by omega), lowAreaByte, if_pos (Nat.le_add_right _ _), Nat.add_sub_cancel_left,
    List.getD_eq_getElem _ _ h]

/-- At reset an address outside the font reads the fill (20_memory.md R57). -/
theorem resetByte_outside_font (a : Nat) (h : ¬ (Config.fontBase.val ≤ a ∧ a < Config.fontBase.val + 80)) :
    resetByte a = memFill := by
  unfold resetByte lowAreaByte
  split
  · split
    · exact List.getD_eq_default _ _ (by rw [fontData_length]; omega)
    · rfl
  · rfl

theorem reset_reg (k : Reg) : State.reset.reg k = 0#8 := by
  simp [State.reset, State.reg, Vector.get_eq_getElem]

theorem reset_key_get (k : Fin 16) : State.reset.key.get k = false := by
  simp [State.reset, Vector.get_eq_getElem]

end Sys2Proof.Machine
end

section
/-! The state's statements (10_state.md), each read off the lemmas above. -/

namespace Sys2Proof.Safety

open Sys2Proof.Machine

/-- Settles O15: `step_keeps_machineInv`, where each kind of step is shown to keep the invariant. -/
theorem everyStepKeepsTheInvariant : Obligations.EveryStepKeepsTheInvariant := by
  unfold Obligations.EveryStepKeepsTheInvariant
  intro s t hs h
  exact step_keeps_machineInv hs h

/-- Settles O14: no memory cell is listed, the stack is empty, and the pc is 0x200. -/
theorem resetMeetsTheInvariant : Obligations.ResetMeetsTheInvariant := machineInv_reset

/-- Settles O17: the frame of an instruction leaves a changed part in the table, and the table names its writers. -/
theorem eachPartHasItsOnlyWriters : Obligations.EachPartHasItsOnlyWriters := by
  unfold Obligations.EachPartHasItsOnlyWriters
  intro i s t h
  obtain ⟨-, hI, hDT, hST, hstack, -, hfb, -, -, hwait, -, -⟩ := exec_changesOnly h
  simp only [List.mem_cons, reduceCtorEq, false_or] at hI hDT hST hstack hfb hwait
  exact ⟨fun hne => stack_mem_writtenParts.mp (not_imp_comm.mp hstack hne),
    fun hne => fb_mem_writtenParts.mp (not_imp_comm.mp hfb hne),
    fun hne => I_mem_writtenParts.mp (not_imp_comm.mp hI hne),
    fun hne => mem_mem_writtenParts.mp (not_imp_comm.mp (exec_mem_eq h) hne),
    fun hne => DT_mem_writtenParts.mp (not_imp_comm.mp hDT hne),
    fun hne => ST_mem_writtenParts.mp (not_imp_comm.mp hST hne),
    fun hne => wait_mem_writtenParts.mp (not_imp_comm.mp hwait hne)⟩

/-- Settles O18: a poll changes a register and the wait mode only; an instruction writes no key, and dirty only as CLS and
DRW, which never clear it. -/
theorem stepsLeaveKeysAndNeverClearDirty : Obligations.StepsLeaveKeysAndNeverClearDirty := by
  unfold Obligations.StepsLeaveKeysAndNeverClearDirty
  refine ⟨fun s t h => ?_, fun i s t h hne => ?_⟩
  · rcases step_next_cases h with ⟨-, rfl⟩ | ⟨-, r, -, rfl⟩ | ⟨-, e, -, rfl⟩ | ⟨-, -, i, -, hexec⟩
    · exact ⟨rfl, id⟩
    · obtain ⟨-, -, -, -, -, -, -, -, hdirty, hkey, -, -, -⟩ := waitPoll_changesOnly r s
      exact ⟨hkey (by simp), (hdirty (by simp)).trans⟩
    · exact ⟨rfl, id⟩
    · exact ⟨exec_key_eq hexec, exec_keeps_dirty hexec⟩
  · obtain ⟨-, -, -, -, -, -, -, hdirty, -, -, -, -⟩ := exec_changesOnly h
    simp only [List.mem_cons, reduceCtorEq, false_or] at hdirty
    exact dirty_mem_writtenParts.mp (not_imp_comm.mp hdirty hne)

/-- Settles O19: a changed VF is in the table of written registers, which names the instructions of R38. -/
theorem vfChangesOnlyAsFlagOrDestination : Obligations.VfChangesOnlyAsFlagOrDestination := by
  unfold Obligations.VfChangesOnlyAsFlagOrDestination
  intro i s t h hne
  obtain ⟨hreg, -⟩ := exec_changesOnly h
  exact VF_mem_writtenRegs (not_imp_comm.mp (hreg 15) hne)

/-- Settles O20: recording an error leaves the pc alone; otherwise `effect_pc`. -/
theorem pcAfterEachInstruction : Obligations.PcAfterEachInstruction := by
  unfold Obligations.PcAfterEachInstruction
  intro i s t hlive h
  rcases exec_next_cases h with ⟨e, rfl⟩ | heff
  · exact ⟨fun _ => rfl, nofun⟩
  · obtain ⟨-, -, -, -, -, -, -, -, -, -, hfault, -⟩ := effect_changesOnly heff
    exact ⟨fun hne => absurd ((hfault fault_not_mem_writtenParts).trans hlive) hne, fun _ => effect_pc heff⟩

/-- Settles O21: FX18 overwrites ST, so that the other value is lost; every other instruction commutes with replacing ST. -/
theorem noInstructionReadsTheSoundTimer : Obligations.NoInstructionReadsTheSoundTimer := by
  unfold Obligations.NoInstructionReadsTheSoundTimer
  intro i s t b h
  by_cases hi : ∃ x, i = .ldStVx x
  · rw [if_pos hi, ← h]
    obtain ⟨x, rfl⟩ := hi
    rfl
  · rw [if_neg hi, exec_setST (not_exists.mp hi), h]
    rfl

/-- Settles O49: the registers, keys and pixels one by one, then the font and the fill of Memory. -/
theorem resetValuesAreTheSpecs : Obligations.ResetValuesAreTheSpecs := by
  unfold Obligations.ResetValuesAreTheSpecs
  exact ⟨reset_reg, rfl, rfl, rfl, rfl, rfl, pixel_clearDisplay, rfl, reset_key_get, rfl, rfl, resetByte_font,
    resetByte_outside_font⟩

end Sys2Proof.Safety
end

section
/-! What a successful store from I does to Memory, and the fetch of a word that the instruction before it has stored. -/

namespace Sys2Proof.Machine

/-- A store from I that lies inside the address space advances the pc and changes Memory only: the bytes stand from I
upward, and every other address reads as before. -/
theorem storeAtI_of_fits {bs : List Byte} {s : State} (hm : Memory.wf s.mem = true)
    (hfit : s.base + bs.length ≤ 4096) :
    ∃ m, storeAtI bs s = .next (s.advance.setMem m) ∧
      (∀ k (hk : k < bs.length), Memory.read m (s.base + k) = bs[k]) ∧
      (∀ a, ¬ (s.base ≤ a ∧ a < s.base + bs.length) → Memory.read m a = Memory.read s.mem a) := by
  obtain ⟨m, hw, -, hne, heq⟩ := writeRange_ok s.mem bs (.inr hfit)
  exact ⟨m, by simp only [storeAtI, hw], heq hm, hne⟩

/-- A register dump that fits puts V[k] at I + k for every k up to X, and changes no other byte. -/
theorem exec_dump_of_fits {x : Reg} {s : State} (hm : Memory.wf s.mem = true) (hfit : s.I.toNat + x.val < 4096) :
    ∃ m, exec (.dump x) s = .next (s.advance.setMem m) ∧
      (∀ k : Reg, k ≤ x → Memory.read m (s.I.toNat + k.val) = s.reg k) ∧
      (∀ a, ¬ (s.I.toNat ≤ a ∧ a ≤ s.I.toNat + x.val) → Memory.read m a = Memory.read s.mem a) := by
  have hlen := regsUpTo_length s x
  obtain ⟨m, hex, heq, hne⟩ := storeAtI_of_fits (bs := regsUpTo s x) hm (by rw [hlen]; exact hfit)
  refine ⟨m, hex, fun k hk => ?_, fun a ha => hne a ?_⟩
  · have hk' : k.val < (regsUpTo s x).length := by rw [hlen]; exact Nat.lt_succ_of_le hk
    exact (heq k.val hk').trans (regsUpTo_getElem s x k hk')
  · rw [hlen]
    exact fun hin => ha ⟨hin.1, Nat.le_of_lt_succ hin.2⟩

end Sys2Proof.Machine

namespace Sys2Proof.Safety

open Sys2Proof.Machine

/-- A fetching step whose word decodes is the execution of the decoded instruction (40_step_cycle.md R95). -/
theorem step_eq_exec {s : State} {i : Instr} (hs : Fetching s) (hpc : s.pc.toNat + 1 < 4096)
    (hi : decode (BitVec.ofNat 16 (wordAtPc s)) = .ok i) : step s = exec i s := by
  have hfetch : fetchInstr s = .ok i := by simp only [fetchInstr, fetchWord_eq s hpc, decodeAt, hi]
  rw [step_of_fetching hs, hfetch]

/-- After a dump of at least V0 and V1 onto the next instruction, the word at the pc is V0 and V1, V0 first. -/
theorem wordAtPc_after_dump {x : Reg} {s : State} {m : Memory} (hx : 1 ≤ x.val) (hI : s.I = s.pc + 2#16)
    (hread : ∀ k : Reg, k ≤ x → Memory.read m (s.I.toNat + k.val) = s.reg k) :
    wordAtPc (s.advance.setMem m) = 256 * (s.reg 0).toNat + (s.reg 1).toNat := by
  have h0 : Memory.read m s.I.toNat = s.reg 0 := hread 0 (Fin.zero_le x)
  have h1 : Memory.read m (s.I.toNat + 1) = s.reg 1 := hread 1 hx
  simp only [wordAtPc, State.setMem_mem, State.setMem_pc, State.advance_pc, ← hI, h0, h1]

end Sys2Proof.Safety
end

section
/-! Program load: the memory that `init` answers. -/

namespace Sys2Proof.Machine

/-- An image that fits is stored at 0x200 into the reset state's Memory; every other byte is as at reset
(70_reset_and_hazards.md R242). -/
theorem initCore_of_fits {rom : List Byte} (h : rom.length ≤ 3584) :
    ∃ m, initCore rom = .next (State.reset.setMem m) ∧
      (∀ j (hj : j < rom.length), Memory.read m (0x200 + j) = rom[j]) ∧
      (∀ a, ¬ (0x200 ≤ a ∧ a < 0x200 + rom.length) → Memory.read m a = resetByte a) := by
  obtain ⟨m, hw, -, hne, heq⟩ := writeRange_ok State.reset.mem (base := 0x200) rom (by omega)
  exact ⟨m, by simp only [initCore, Config.progOrigin, hw], heq wf_nil, hne⟩

/-- An image that does not fit is refused (D25). -/
theorem initCore_of_too_long {rom : List Byte} (h : 3584 < rom.length) :
    initCore rom = .refused (.romTooLong rom.length) := by
  have hne : rom ≠ [] := List.ne_nil_of_length_pos (by omega)
  have herr := writeRange_error State.reset.mem (base := 0x200) rom hne (by omega)
  simp only [initCore, Config.progOrigin, herr]

end Sys2Proof.Machine
end

section
/-! The memory's statements (20_memory.md). -/

namespace Sys2Proof.Safety

open Sys2Proof.Machine

/-- Settles O48: the dump leaves V0 and V1 at the new pc, which is the old I, so that the next fetch reads that word. -/
theorem nextFetchSeesTheStoredWord : Obligations.NextFetchSeesTheStoredWord := by
  unfold Obligations.NextFetchSeesTheStoredWord
  intro x s t i hm hs hx hI hfit hexec hdec
  obtain ⟨m, hnext, hread, -⟩ := exec_dump_of_fits hm hfit
  cases hnext.symm.trans hexec
  have hpc : (s.advance.setMem m).pc.toNat + 1 < 4096 := by
    rw [State.setMem_pc, State.advance_pc, ← hI]
    omega
  exact step_eq_exec hs hpc (by rw [wordAtPc_after_dump hx hI hread, hdec])

/-- Settles O50: the font lies below 0x200, so that the stored image leaves it as at reset. -/
theorem initInstallsFontAndRom : Obligations.InitInstallsFontAndRom := by
  unfold Obligations.InitInstallsFontAndRom
  refine fun rom => ⟨fun h => ?_, initCore_of_too_long⟩
  obtain ⟨m, hinit, hrom, hrest⟩ := initCore_of_fits h
  refine ⟨State.reset.setMem m, hinit, rfl, hrom, fun j hj => ?_, fun a hfont hout => ?_⟩
  · have hbelow : Config.fontBase.val + j < 0x200 :=
      (Nat.add_lt_add_left (fontData_length ▸ hj) _).trans_le Config.fontBase_bound
    exact (hrest _ (fun hin => absurd hin.1 (Nat.not_le_of_lt hbelow))).trans (resetByte_font j hj)
  · exact (hrest a hout).trans (resetByte_outside_font a hfont)

end Sys2Proof.Safety
end

section
/-! Encoding and decoding (30_encoding.md): what the decoder can answer on a word, the round trip in both directions, and
the rows of the opcode map. -/

namespace Sys2Proof.Laws.RowMatch

/-- Every instruction is in its row: the family's members together. -/
theorem statement_holds : ∀ i : Instr, Statement i
  | .cls => cls | .ret => ret | .jp nnn => jp nnn | .call nnn => call nnn
  | .seImm x nn => seImm x nn | .sneImm x nn => sneImm x nn | .seReg x y => seReg x y
  | .ldImm x nn => ldImm x nn | .addImm x nn => addImm x nn
  | .ldReg x y => ldReg x y | .orReg x y => orReg x y | .andReg x y => andReg x y | .xorReg x y => xorReg x y
  | .addReg x y => addReg x y | .subReg x y => subReg x y | .shr x y => shr x y | .subn x y => subn x y
  | .shl x y => shl x y | .sneReg x y => sneReg x y
  | .ldI nnn => ldI nnn | .jpV0 nnn => jpV0 nnn | .rnd x nn => rnd x nn | .drw x y n => drw x y n
  | .skp x => skp x | .sknp x => sknp x
  | .ldVxDt x => ldVxDt x | .ldVxK x => ldVxK x | .ldDtVx x => ldDtVx x | .ldStVx x => ldStVx x
  | .addI x => addI x | .ldF x => ldF x | .ldB x => ldB x | .dump x => dump x | .load x => load x

end Sys2Proof.Laws.RowMatch

namespace Sys2Proof

/-! A word put together again from its fields, where the fixed fields are known -/

section fields
variable {op w : Word} {hn n : BitVec 4} {nn : Byte}

theorem encNNN_of_fields (h : (highNibble op).toNat = hn.toNat) : encNNN hn (fieldNNN op) = op := by
  rw [← BitVec.eq_of_toNat_eq h, encNNN_fields]

theorem encXNN_of_fields (h : (highNibble op).toNat = hn.toNat) (hnn : (fieldNN op).toNat = nn.toNat) :
    encXNN hn (fieldX op) nn = op := by
  rw [← BitVec.eq_of_toNat_eq h, ← BitVec.eq_of_toNat_eq hnn, encXNN_fields]

theorem encXYN_of_fields (h : (highNibble op).toNat = hn.toNat) (hN : (fieldN op).toNat = n.toNat) :
    encXYN hn (fieldX op) (fieldY op) n = op := by
  rw [← BitVec.eq_of_toNat_eq h, ← BitVec.eq_of_toNat_eq hN, encXYN_fields]

/-! Words that agree under a row's mask agree in the fields that the mask keeps -/

theorem highNibble_eq_of_mask (h : op &&& 0xF000#16 = w &&& 0xF000#16) : highNibble op = highNibble w := by
  rw [← encNNN_fields op, ← encNNN_fields w, Laws.RowMatch.encNNN_masked, Laws.RowMatch.encNNN_masked] at h
  simpa using congrArg highNibble h

theorem highNibble_fieldN_eq_of_mask (h : op &&& 0xF00F#16 = w &&& 0xF00F#16) :
    highNibble op = highNibble w ∧ fieldN op = fieldN w := by
  rw [← encXYN_fields op, ← encXYN_fields w, Laws.RowMatch.encXYN_masked, Laws.RowMatch.encXYN_masked] at h
  exact ⟨by simpa using congrArg highNibble h, by simpa using congrArg fieldN h⟩

theorem highNibble_fieldNN_eq_of_mask (h : op &&& 0xF0FF#16 = w &&& 0xF0FF#16) :
    highNibble op = highNibble w ∧ fieldNN op = fieldNN w := by
  rw [← encXNN_fields op, ← encXNN_fields w, Laws.RowMatch.encXNN_masked, Laws.RowMatch.encXNN_masked] at h
  exact ⟨by simpa using congrArg highNibble h, by simpa using congrArg fieldNN h⟩

end fields

/-! What the decoder can answer -/

/-- An answer that gives `op` its one meaning (30_encoding.md R74, R76): a well-formed instruction that encodes to `op`, or
the illegal opcode `op`. -/
def AnswersFor (op : Word) : Except DecodeReject Instr → Prop
  | .ok i => i.wellFormed = true ∧ encode i = op
  | .error e => e = .illegalOpcode op

theorem decodeAlu_answers {op : Word} (h : (highNibble op).toNat = 0x8) : AnswersFor op (decodeAlu op) := by
  unfold decodeAlu
  split
  case h_10 => rfl
  all_goals exact ⟨rfl, encXYN_of_fields h ‹_›⟩

theorem decodeKeys_answers {op : Word} (h : (highNibble op).toNat = 0xE) : AnswersFor op (decodeKeys op) := by
  unfold decodeKeys
  split
  case h_3 => rfl
  all_goals exact ⟨rfl, encXNN_of_fields h ‹_›⟩

theorem decodeMisc_answers {op : Word} (h : (highNibble op).toNat = 0xF) : AnswersFor op (decodeMisc op) := by
  unfold decodeMisc
  split
  case h_10 => rfl
  all_goals exact ⟨rfl, encXNN_of_fields h ‹_›⟩

/-- The decoder on every word, family by family: the fields it reads are the fields the encoder writes. -/
theorem decode_answers (op : Word) : AnswersFor op (decode op) := by
  unfold decode
  split
  -- family 0: two words and no operand
  case h_1 =>
    split_ifs with hcls hret
    · exact ⟨rfl, hcls.symm⟩
    · exact ⟨rfl, hret.symm⟩
    · rfl
  -- families 1, 2, A, B: format NNN
  case h_2 h | h_3 h | h_11 h | h_12 h => exact ⟨rfl, encNNN_of_fields h⟩
  -- families 3, 4, 6, 7, C: format XNN
  case h_4 h | h_5 h | h_7 h | h_8 h | h_13 h => exact ⟨rfl, encXNN_of_fields h rfl⟩
  -- families 5 and 9: format XYS with the low nibble 0
  case h_6 h | h_10 h =>
    split_ifs with hN
    · exact ⟨rfl, encXYN_of_fields h (congrArg BitVec.toNat hN)⟩
    · rfl
  -- family D: format XYN, the height a 4-bit field
  case h_14 h =>
    have hN : BitVec.ofNat 4 (fieldN op).toNat = fieldN op := by rw [BitVec.ofNat_toNat, BitVec.setWidth_eq]
    exact ⟨(wellFormed_drw _ _ _).mpr (fieldN op).isLt, encXYN_of_fields h (congrArg BitVec.toNat hN.symm)⟩
  -- families 8, E, F: decoders of their own
  case h_9 h => exact decodeAlu_answers h
  case h_15 h => exact decodeKeys_answers h
  case h_16 h => exact decodeMisc_answers h
  -- no other nibble exists; the answer would be the illegal opcode
  case h_17 => rfl

theorem encode_of_decode {op : Word} {i : Instr} (h : decode op = .ok i) : i.wellFormed = true ∧ encode i = op := by
  have hans := decode_answers op
  rwa [h] at hans

theorem decode_eq_illegal {op : Word} (h : ¬ ∃ i, decode op = .ok i) : decode op = .error (.illegalOpcode op) := by
  have hans := decode_answers op
  cases hdec : decode op with
  | ok i => exact absurd ⟨i, hdec⟩ h
  | error e =>
    rw [hdec] at hans
    exact congrArg _ hans

/-! Decoding what was encoded -/

/-- Each format's fields read back what the encoder put there. -/
theorem decode_encode {i : Instr} (hi : i.wellFormed = true) : decode (encode i) = .ok i := by
  cases i with
  | cls | ret => rfl
  | jp | call | ldI | jpV0 | seImm | sneImm | ldImm | addImm | rnd | seReg | sneReg => simp [encode, decode]
  | drw x y n => simp [encode, decode, Nat.mod_eq_of_lt ((wellFormed_drw x y n).mp hi)]
  | ldReg | orReg | andReg | xorReg | addReg | subReg | shr | subn | shl => simp [encode, decode, decodeAlu]
  | skp | sknp => simp [encode, decode, decodeKeys]
  | ldVxDt | ldVxK | ldDtVx | ldStVx | addI | ldF | ldB | dump | load => simp [encode, decode, decodeMisc]

/-- Two bytes in front of any others are decoded as the word they hold. -/
theorem decodeBytes_storedBytes {op : Word} {i : Instr} (h : decode op = .ok i) (rest : List Byte) :
    decodeBytes (storedBytes op ++ rest) = .ok (i, rest) := by
  simp [storedBytes, decodeBytes, h]

/-! The rows of the opcode map -/

theorem OpcodeRow.selects_iff {r : OpcodeRow} {op : Word} : r.selects op = true ↔ op &&& r.mask = r.value := beq_iff_eq

/-- Every row has an instruction: its value, an encoding with zero operands, decodes to one of that row. -/
theorem decode_value_row {r : OpcodeRow} (hr : r ∈ opcodeMap) : ∃ i : Instr, decode r.value = .ok i ∧ i.row = r := by
  have hall : ∀ r ∈ opcodeMap, (decode r.value).toOption.map Instr.row = some r := by decide
  have hrow := hall r hr
  cases hdec : decode r.value with
  | ok i => exact ⟨i, rfl, by simpa [hdec, Except.toOption] using hrow⟩
  | error e => simp [hdec, Except.toOption] at hrow

/-- A word that an instruction's row selects decodes: it agrees with the instruction's own encoding in every field that
the decoder selects by. -/
theorem decode_of_row_selects {i : Instr} {op : Word} (h : i.row.selects op = true) : ∃ j, decode op = .ok j := by
  obtain ⟨-, hmask⟩ := Laws.RowMatch.statement_holds i
  have heq : op &&& i.row.mask = encode i &&& i.row.mask := (OpcodeRow.selects_iff.mp h).trans hmask.symm
  cases i with
  | cls | ret =>
    have hop : op = _ := BitVec.and_allOnes.symm.trans (heq.trans BitVec.and_allOnes)
    exact ⟨_, hop ▸ decode_encode rfl⟩
  | jp | call | seImm | sneImm | ldImm | addImm | ldI | jpV0 | rnd | drw =>
    have hn := highNibble_eq_of_mask heq
    simp [decode, hn, encode]
  | seReg | sneReg =>
    obtain ⟨hn, hN⟩ := highNibble_fieldN_eq_of_mask heq
    simp [decode, hn, hN, encode]
  | ldReg | orReg | andReg | xorReg | addReg | subReg | shr | subn | shl =>
    obtain ⟨hn, hN⟩ := highNibble_fieldN_eq_of_mask heq
    simp [decode, hn, decodeAlu, hN, encode]
  | skp | sknp =>
    obtain ⟨hn, hnn⟩ := highNibble_fieldNN_eq_of_mask heq
    simp [decode, hn, decodeKeys, hnn, encode]
  | ldVxDt | ldVxK | ldDtVx | ldStVx | addI | ldF | ldB | dump | load =>
    obtain ⟨hn, hnn⟩ := highNibble_fieldNN_eq_of_mask heq
    simp [decode, hn, decodeMisc, hnn, encode]

/-- A word that decodes is selected by the row of its instruction, which is a row of the map. -/
theorem row_selects_of_decode {op : Word} {i : Instr} (h : decode op = .ok i) :
    i.row ∈ opcodeMap ∧ i.row.selects op = true := by
  obtain ⟨-, rfl⟩ := encode_of_decode h
  obtain ⟨hmem, hmask⟩ := Laws.RowMatch.statement_holds i
  exact ⟨hmem, OpcodeRow.selects_iff.mpr hmask⟩

theorem decode_ok_iff_selects (op : Word) : (∃ i, decode op = .ok i) ↔ ∃ r ∈ opcodeMap, r.selects op = true := by
  constructor
  · rintro ⟨i, h⟩
    exact ⟨i.row, row_selects_of_decode h⟩
  · rintro ⟨r, hr, h⟩
    obtain ⟨i, -, rfl⟩ := decode_value_row hr
    exact decode_of_row_selects h

/-- Two rows that select one word agree on the bits that both of them fix. -/
theorem OpcodeRow.values_agree_of_selects {r q : OpcodeRow} {op : Word} (hr : r.selects op = true)
    (hq : q.selects op = true) : r.value &&& q.mask = q.value &&& r.mask := by
  rw [← OpcodeRow.selects_iff.mp hr, ← OpcodeRow.selects_iff.mp hq, BitVec.and_assoc, BitVec.and_assoc,
    BitVec.and_comm r.mask]

/-- Different rows of the map differ in a bit that both of them fix. -/
theorem opcodeMap_eq_of_values_agree : ∀ r ∈ opcodeMap, ∀ q ∈ opcodeMap,
    r.value &&& q.mask = q.value &&& r.mask → r = q := by decide

end Sys2Proof
end

section
/-! The encoding's statements (30_encoding.md), each read off the lemmas above. -/

namespace Sys2Proof.Safety

/-- Settles O1: `decode_encode`, and the two stored bytes in front of the rest are that word. -/
theorem decodeOfEncodeIsTheInstruction : Obligations.DecodeOfEncodeIsTheInstruction := by
  unfold Obligations.DecodeOfEncodeIsTheInstruction
  intro i hi
  exact ⟨decode_encode hi, decodeBytes_storedBytes (decode_encode hi)⟩

/-- Settles O2: `encode_of_decode`, read off the decoder's answers family by family. -/
theorem encodeOfDecodeIsTheOpcode : Obligations.EncodeOfDecodeIsTheOpcode := by
  unfold Obligations.EncodeOfDecodeIsTheOpcode
  intro op i h
  exact encode_of_decode h

/-- Settles O3: a decoded word is the encoding of its instruction, whose row selects it; a selected word has the fields
that the decoder asks for; and the decoder's only error is the illegal opcode. -/
theorem decodeAcceptsExactlyTheOpcodeMap : Obligations.DecodeAcceptsExactlyTheOpcodeMap := by
  unfold Obligations.DecodeAcceptsExactlyTheOpcodeMap
  exact ⟨decode_ok_iff_selects, fun _ _ h => row_selects_of_decode h,
    fun op h => decode_eq_illegal (mt (decode_ok_iff_selects op).mp h)⟩

/-- Settles O4: rows that select one word agree on their common bits, and no two rows of the map do. -/
theorem opcodeMapRowsAreDisjoint : Obligations.OpcodeMapRowsAreDisjoint := by
  unfold Obligations.OpcodeMapRowsAreDisjoint
  intro op r q hr hq hrsel hqsel
  exact opcodeMap_eq_of_values_agree r hr q hq (OpcodeRow.values_agree_of_selects hrsel hqsel)

/-- Settles O5: the decoder runs on the eleven words. -/
theorem writtenOutWordsDecode : Obligations.WrittenOutWordsDecode := by
  unfold Obligations.WrittenOutWordsDecode
  decide

end Sys2Proof.Safety
end

section
/-! The ways a step can end beside completing: an error at fetch or decode, an error recorded by an instruction, and the
refusal of an operand. -/

namespace Sys2Proof.Machine

/-- A byte of the word at the pc lies outside memory: the error names the lowest such address (60_exceptions.md R213). -/
theorem fetchWord_outside (m : Memory) {pc : Word} (h : 4095 ≤ pc.toNat) :
    fetchWord m pc = .error (.memoryBoundsError (max pc.toNat 4096)) := by
  unfold fetchWord
  rcases Nat.lt_or_ge pc.toNat 4096 with hlt | hge
  · have hpc : pc.toNat = 4095 := by omega
    simp [memRead_eq, hpc]
  · rw [memRead_eq, if_neg (Nat.not_lt_of_le hge), Nat.max_eq_left hge]

/-- The operands that have no meaning (40_step_cycle.md R96): a key index or a font digit above 15. -/
def RefusesOperand (i : Instr) (s : State) (r : Refusal) : Prop :=
  ∃ x, 15 < (s.reg x).toNat ∧
    (((i = .skp x ∨ i = .sknp x) ∧ r = .keyIndexOutOfRange (s.reg x)) ∨
     (i = .ldF x ∧ r = .fontDigitOutOfRange (s.reg x)))

theorem storeAtI_answers_next (bs : List Byte) (s : State) : ∃ t, storeAtI bs s = .next t := by
  unfold storeAtI
  split <;> exact ⟨_, rfl⟩

/-- An instruction answers a next state, an error being one too, or it is refused for its operand. -/
theorem exec_next_or_refused (i : Instr) (s : State) :
    (∃ t, exec i s = .next t) ∨ ∃ r, exec i s = .refused r ∧ RefusesOperand i s r := by
  cases i with
  | skp x | sknp x =>
    rcases Nat.lt_or_ge 15 (s.reg x).toNat with hgt | hle
    · have hkey : keyIndex (s.reg x) = none := keyIndex_of_gt hgt
      exact .inr ⟨.keyIndexOutOfRange (s.reg x), by simp only [exec, execSkp, execSknp, hkey], x, hgt, by simp⟩
    · have hkey : keyIndex (s.reg x) = some ⟨(s.reg x).toNat, Nat.lt_succ_of_le hle⟩ := keyIndex_of_eq rfl
      exact .inl ⟨_, by simp only [exec, execSkp, execSknp, hkey]; exact skipIf_eq _ s⟩
  | ldF x =>
    rcases Nat.lt_or_ge 15 (s.reg x).toNat with hgt | hle
    · have hglyph : glyphAddr (s.reg x) = none := glyphAddr_of_gt hgt
      exact .inr ⟨.fontDigitOutOfRange (s.reg x), by simp only [exec, execLdF, hglyph], x, hgt, by simp⟩
    · obtain ⟨a, hglyph, -⟩ := glyphAddr_of_le hle
      exact .inl ⟨s.advance.setI a, by simp only [exec, execLdF, hglyph]⟩
  | ldB | dump => exact .inl (storeAtI_answers_next _ s)
  | ret =>
    simp only [exec, execRet]
    split <;> exact .inl ⟨_, rfl⟩
  | call =>
    simp only [exec, execCall]
    split <;> exact .inl ⟨_, rfl⟩
  | drw =>
    simp only [exec, execDrw]
    split <;> exact .inl ⟨_, rfl⟩
  | load =>
    simp only [exec, execLoad]
    split <;> exact .inl ⟨_, rfl⟩
  | _ => exact .inl ⟨_, rfl⟩

theorem refusesOperand_of_exec_refused {i : Instr} {s : State} {r : Refusal} (h : exec i s = .refused r) :
    RefusesOperand i s r := by
  rcases exec_next_or_refused i s with ⟨t, ht⟩ | ⟨r', hr', href⟩
  · cases h.symm.trans ht
  · cases h.symm.trans hr'
    exact href

theorem exec_ne_fault (i : Instr) (s : State) (e : Fault) : exec i s ≠ .fault e := by
  intro h
  rcases exec_next_or_refused i s with ⟨t, ht⟩ | ⟨r, hr, -⟩
  · cases h.symm.trans ht
  · cases h.symm.trans hr

/-- A live step returns to its caller what its next state records. -/
theorem raisedBy_of_live {s t : State} (hlive : s.fault = none) (h : step s = .next t) : raisedBy s = t.fault := by
  simp only [raisedBy, hlive, h]

/-- Only a live step with a next state returns an error. -/
theorem step_of_raisedBy {s : State} {e : Fault} (h : raisedBy s = some e) :
    s.fault = none ∧ ∃ t, step s = .next t ∧ t.fault = some e := by
  unfold raisedBy at h
  split at h
  · next t hlive hstep => exact ⟨hlive, t, hstep, h⟩
  · cases h

end Sys2Proof.Machine

namespace Sys2Proof.Safety

open Sys2Proof.Machine

/-- An error at fetch or decode is recorded in the state before the step. -/
theorem step_of_fetchInstr_error {s : State} {e : Fault} (hs : Fetching s) (h : fetchInstr s = .error e) :
    step s = .next (s.setFault (some e)) := by
  rw [step_of_fetching hs, h]
  exact takeFault_eq e s

theorem step_of_pc_outside {s : State} (hs : Fetching s) (h : 4095 ≤ s.pc.toNat) :
    step s = .next (s.setFault (some (.memoryBoundsError (max s.pc.toNat 4096)))) :=
  step_of_fetchInstr_error hs (by simp only [fetchInstr, fetchWord_outside s.mem h])

/-- A step changes the fault status only by recording an error in a live state, all else as before (R98). -/
theorem step_fault_cases {s t : State} (h : step s = .next t) :
    t.fault = s.fault ∨ (s.fault = none ∧ ∃ e, t = s.setFault (some e)) := by
  rcases step_next_cases h with ⟨-, rfl⟩ | ⟨-, r, -, rfl⟩ | ⟨hs, e, -, rfl⟩ | ⟨hs, -, i, -, hexec⟩
  · exact .inl rfl
  · obtain ⟨-, -, -, -, -, -, -, -, -, -, -, hfault, -⟩ := waitPoll_changesOnly r s
    exact .inl (hfault (by simp))
  · exact .inr ⟨hs.1, e, rfl⟩
  · rcases exec_next_cases hexec with ⟨e, rfl⟩ | heff
    · exact .inr ⟨hs.1, e, rfl⟩
    · obtain ⟨-, -, -, -, -, -, -, -, -, -, hfault, -⟩ := effect_changesOnly heff
      exact .inl (hfault fault_not_mem_writtenParts)

theorem step_ne_fault (s : State) (e : Fault) : step s ≠ .fault e := by
  rcases hf : s.fault with _ | f
  · rcases hw : s.wait with _ | r
    · rw [step_of_fetching ⟨hf, hw⟩]
      rcases fetchInstr s with f | i
      · exact nofun
      · exact exec_ne_fault i s e
    · rw [step_of_wait hf hw]
      exact nofun
  · rw [step_of_fault hf]
    exact nofun

end Sys2Proof.Safety
end

section
/-! The step cycle's statements (40_step_cycle.md), each read off the lemmas above. -/

namespace Sys2Proof.Safety

open Sys2Proof.Machine

/-- Settles O11: `step_fault_cases`, at a step whose next state records an error and at one that changes the status. -/
theorem raisedFaultsArePrecise : Obligations.RaisedFaultsArePrecise := by
  unfold Obligations.RaisedFaultsArePrecise
  refine ⟨fun s e h => ?_, fun s t h hne => ?_⟩
  · obtain ⟨hlive, t, hstep, ht⟩ := step_of_raisedBy h
    rcases step_fault_cases hstep with hsame | ⟨-, e', rfl⟩
    · cases ht.symm.trans (hsame.trans hlive)
    · cases ht
      exact ⟨hlive, hstep⟩
  · rcases step_fault_cases h with hsame | ⟨hlive, -⟩
    · exact absurd hsame hne
    · exact raisedBy_of_live hlive h

/-- Settles O13: `exec_next_or_refused`, where each instruction is shown to answer a next state or to refuse its operand. -/
theorem onlyOutOfRangeOperandsAreRefused : Obligations.OnlyOutOfRangeOperandsAreRefused := by
  unfold Obligations.OnlyOutOfRangeOperandsAreRefused
  exact ⟨fun _ _ _ h => refusesOperand_of_exec_refused h, step_ne_fault⟩

/-- Settles O6: `step_eq_exec`; what decodes is well formed in any case. -/
theorem stepRunsTheDecodedInstruction : Obligations.StepRunsTheDecodedInstruction := by
  unfold Obligations.StepRunsTheDecodedInstruction
  intro s i hs hpc hi _
  exact step_eq_exec hs hpc hi

/-- Settles O7: the lowest address outside memory is the pc itself, or 4096 when only the second byte is outside. -/
theorem fetchOutsideMemoryRaisesBoundsError : Obligations.FetchOutsideMemoryRaisesBoundsError := by
  unfold Obligations.FetchOutsideMemoryRaisesBoundsError
  refine fun s hs => ⟨fun h => ?_, fun h => ?_⟩
  · have hstep := step_of_pc_outside hs (by omega)
    rwa [Nat.max_eq_left h] at hstep
  · have hstep := step_of_pc_outside hs (by omega)
    rwa [h] at hstep

/-- Settles O8: the decoder answers only words that some row selects, so that the fetched word is illegal. -/
theorem illegalOpcodeRaisesDecodeError : Obligations.IllegalOpcodeRaisesDecodeError := by
  unfold Obligations.IllegalOpcodeRaisesDecodeError
  intro s hs hpc hrow
  have hdec := decode_eq_illegal (mt (decode_ok_iff_selects _).mp hrow)
  exact step_of_fetchInstr_error hs (by simp only [fetchInstr, fetchWord_eq s hpc, decodeAt, hdec])

end Sys2Proof.Safety
end

section
/-! What the arithmetic-immediate instructions answer: each writes one register after the advance, and RND counts its
draw first. -/

namespace Sys2Proof.Machine

theorem exec_ldImm_eq (x : Reg) (nn : Byte) (s : State) :
    exec (.ldImm x nn) s = .next (s.advance.setReg x nn) := writeReg_eq x nn s

theorem exec_addImm_eq (x : Reg) (nn : Byte) (s : State) :
    exec (.addImm x nn) s = .next (s.advance.setReg x (aluAdd (s.reg x) nn)) := writeReg_eq x _ s

theorem exec_rnd_eq (x : Reg) (nn : Byte) (s : State) :
    exec (.rnd x nn) s = .next ((s.setDraws (s.draws + 1)).advance.setReg x (Config.draw8 s.draws &&& nn)) :=
  writeReg_eq x _ _

/-- A masked byte has no bit outside its mask. -/
theorem masked_and_not_mask (b nn : Byte) : b &&& nn &&& ~~~nn = 0#8 := by
  rw [BitVec.and_assoc, BitVec.and_not_self]
  exact BitVec.and_zero

end Sys2Proof.Machine
end

section
/-! The statements of the arithmetic-immediate family (41_arith_immediate.md): the decoding is `decode_encode`, the answer
one of the equations above, and the frame that of a register write. -/

namespace Sys2Proof.Safety

open Sys2Proof.Machine

/-- Settles O22: the answer is a write of NN to Vx after the advance. -/
theorem ldImmLoadsTheImmediate : Obligations.LdImmLoadsTheImmediate := by
  unfold Obligations.LdImmLoadsTheImmediate
  intro x nn s
  have hdec := decode_encode (i := .ldImm x nn) rfl
  have hframe := changesOnly_setReg s x nn (List.mem_singleton_self x)
  exact ⟨_, hdec, exec_ldImm_eq x nn s, by simp, by simp, hframe⟩

/-- Settles O23: the byte written to Vx is the ALU's sum, whose value is `aluAdd_toNat`; VF is in the frame. -/
theorem addImmAddsModulo256WithoutFlag : Obligations.AddImmAddsModulo256WithoutFlag := by
  unfold Obligations.AddImmAddsModulo256WithoutFlag
  intro x nn s
  have hdec := decode_encode (i := .addImm x nn) rfl
  have hframe := changesOnly_setReg s x (aluAdd (s.reg x) nn) (List.mem_singleton_self x)
  exact ⟨_, hdec, exec_addImm_eq x nn s, by simp, by simp [aluAdd_toNat], hframe⟩

/-- Settles O24: whatever the draw is, `masked_and_not_mask` clears the bits of Vx outside NN; the counter and Vx are
the frame's exceptions. -/
theorem rndMasksAFreeDraw : Obligations.RndMasksAFreeDraw := by
  unfold Obligations.RndMasksAFreeDraw
  intro x nn s
  have hdec := decode_encode (i := .rnd x nn) rfl
  have hframe := changesOnly_setReg_setDraws s (s.draws + 1) x (Config.draw8 s.draws &&& nn)
  exact ⟨_, hdec, exec_rnd_eq x nn s, by simp, by simp,
    by rw [State.reg_setReg_same, masked_and_not_mask], by simp, hframe⟩

end Sys2Proof.Safety
end

section
/-! What the arithmetic-register instructions answer, as one of two shared shapes: a register write, or a register write
with the flag written last (42_arith_register.md R129). -/

namespace Sys2Proof.Machine

section answers
variable (x y : Reg) (s : State)

theorem exec_ldReg_eq : exec (.ldReg x y) s = writeReg x (s.reg y) s := rfl

theorem exec_orReg_eq : exec (.orReg x y) s = writeReg x (s.reg x ||| s.reg y) s := rfl

theorem exec_andReg_eq : exec (.andReg x y) s = writeReg x (s.reg x &&& s.reg y) s := rfl

theorem exec_xorReg_eq : exec (.xorReg x y) s = writeReg x (s.reg x ^^^ s.reg y) s := rfl

theorem exec_addReg_eq :
    exec (.addReg x y) s = writeRegFlag x (aluAdd (s.reg x) (s.reg y)) (carryFlag (s.reg x) (s.reg y)) s := rfl

theorem exec_subReg_eq :
    exec (.subReg x y) s = writeRegFlag x (aluSub (s.reg x) (s.reg y)) (noBorrowFlag (s.reg x) (s.reg y)) s := rfl

theorem exec_shr_eq : exec (.shr x y) s = writeRegFlag x (aluShr (s.reg x)) (shrFlag (s.reg x)) s := rfl

theorem exec_subn_eq :
    exec (.subn x y) s = writeRegFlag x (aluSub (s.reg y) (s.reg x)) (noBorrowFlag (s.reg y) (s.reg x)) s := rfl

theorem exec_shl_eq : exec (.shl x y) s = writeRegFlag x (aluShl (s.reg x)) (shlFlag (s.reg x)) s := rfl

end answers

end Sys2Proof.Machine

namespace Sys2Proof.Safety

open Sys2Proof.Machine

/-- An instruction that answers a register write completes with that register and the pc changed, and nothing else. -/
theorem completes_of_writeReg {i : Instr} {x : Reg} {r : Byte} {s : State} (h : exec i s = writeReg x r s) :
    ∃ t, exec i s = .next t ∧ t.pc = s.pc + 2#16 ∧ t.reg x = r ∧ ChangesOnly [x] [] s t :=
  ⟨_, h.trans (writeReg_eq x r s), by simp, State.reg_setReg_same _ x r,
    changesOnly_setReg s x r (List.mem_singleton_self x)⟩

/-- An instruction that answers a register write and a flag write completes with the flag in VF, which is written last;
the result stays in Vx unless that is VF itself. -/
theorem completes_of_writeRegFlag {i : Instr} {x : Reg} {r f : Byte} {s : State}
    (h : exec i s = writeRegFlag x r f s) :
    ∃ t, exec i s = .next t ∧ t.pc = s.pc + 2#16 ∧ (x ≠ 15 → t.reg x = r) ∧ t.reg 15 = f ∧
      ChangesOnly [x, 15] [] s t := by
  refine ⟨_, h.trans (writeRegFlag_eq x r f s), by simp, fun hx => ?_, State.reg_setReg_same _ VF f,
    changesOnly_setReg_flag s x r f⟩
  have hne : x ≠ VF := hx
  rw [State.reg_setReg_of_ne _ _ _ f hne, State.reg_setReg_same]

end Sys2Proof.Safety
end

section
/-! The statements of the arithmetic-register family (42_arith_register.md): the decoding is `decode_encode`, the
completion that of the instruction's shape, and the numbers those of the ALU result and of the flag. -/

namespace Sys2Proof.Safety

open Sys2Proof.Machine

/-- Settles O25: each of the four answers a write to Vx alone. -/
theorem moveAndLogicWriteVxAlone : Obligations.MoveAndLogicWriteVxAlone := by
  unfold Obligations.MoveAndLogicWriteVxAlone
  intro x y s
  exact ⟨⟨decode_encode (i := .ldReg x y) rfl, completes_of_writeReg (exec_ldReg_eq x y s)⟩,
    ⟨decode_encode (i := .orReg x y) rfl, completes_of_writeReg (exec_orReg_eq x y s)⟩,
    ⟨decode_encode (i := .andReg x y) rfl, completes_of_writeReg (exec_andReg_eq x y s)⟩,
    ⟨decode_encode (i := .xorReg x y) rfl, completes_of_writeReg (exec_xorReg_eq x y s)⟩⟩

/-- Settles O26: the result is `aluAdd_toNat`, the flag `carryFlag_toNat`, both of the old operands. -/
theorem addRegWritesSumThenCarry : Obligations.AddRegWritesSumThenCarry := by
  unfold Obligations.AddRegWritesSumThenCarry
  intro x y s
  have hdec := decode_encode (i := .addReg x y) rfl
  obtain ⟨t, hexec, hpc, hx, hVF, hframe⟩ := completes_of_writeRegFlag (exec_addReg_eq x y s)
  exact ⟨t, hdec, hexec, hpc, fun h => by rw [hx h, aluAdd_toNat], by rw [hVF, carryFlag_toNat], hframe⟩

/-- Settles O27: the result is `aluSub_toNat`, the flag `noBorrowFlag_toNat`, with minuend Vx. -/
theorem subRegWritesDifferenceThenNoBorrow : Obligations.SubRegWritesDifferenceThenNoBorrow := by
  unfold Obligations.SubRegWritesDifferenceThenNoBorrow
  intro x y s
  have hdec := decode_encode (i := .subReg x y) rfl
  obtain ⟨t, hexec, hpc, hx, hVF, hframe⟩ := completes_of_writeRegFlag (exec_subReg_eq x y s)
  exact ⟨t, hdec, hexec, hpc, fun h => by rw [hx h, aluSub_toNat], by rw [hVF, noBorrowFlag_toNat], hframe⟩

/-- Settles O28: as for SUB, with minuend Vy. -/
theorem subnWritesReversedDifferenceThenNoBorrow : Obligations.SubnWritesReversedDifferenceThenNoBorrow := by
  unfold Obligations.SubnWritesReversedDifferenceThenNoBorrow
  intro x y s
  have hdec := decode_encode (i := .subn x y) rfl
  obtain ⟨t, hexec, hpc, hx, hVF, hframe⟩ := completes_of_writeRegFlag (exec_subn_eq x y s)
  exact ⟨t, hdec, hexec, hpc, fun h => by rw [hx h, aluSub_toNat], by rw [hVF, noBorrowFlag_toNat], hframe⟩

/-- Settles O29: the result is `aluShr_toNat`, the flag `shrFlag_toNat`; neither reads Vy. -/
theorem shrHalvesVxAndKeepsTheBitShiftedOut : Obligations.ShrHalvesVxAndKeepsTheBitShiftedOut := by
  unfold Obligations.ShrHalvesVxAndKeepsTheBitShiftedOut
  intro x y s
  have hdec := decode_encode (i := .shr x y) rfl
  obtain ⟨t, hexec, hpc, hx, hVF, hframe⟩ := completes_of_writeRegFlag (exec_shr_eq x y s)
  exact ⟨t, hdec, hexec, hpc, fun h => by rw [hx h, aluShr_toNat], by rw [hVF, shrFlag_toNat], hframe⟩

/-- Settles O30: the result is `aluShl_toNat`, the flag `shlFlag_toNat`; neither reads Vy. -/
theorem shlDoublesVxAndKeepsTheBitShiftedOut : Obligations.ShlDoublesVxAndKeepsTheBitShiftedOut := by
  unfold Obligations.ShlDoublesVxAndKeepsTheBitShiftedOut
  intro x y s
  have hdec := decode_encode (i := .shl x y) rfl
  obtain ⟨t, hexec, hpc, hx, hVF, hframe⟩ := completes_of_writeRegFlag (exec_shl_eq x y s)
  exact ⟨t, hdec, hexec, hpc, fun h => by rw [hx h, aluShl_toNat], by rw [hVF, shlFlag_toNat], hframe⟩

end Sys2Proof.Safety
end

section
/-! What the control-flow instructions answer: a jump, a call or a return in the cases of the stack, or the shared skip
(43_control_flow.md). -/

namespace Sys2Proof.Machine

section answers
variable (nnn : Addr) (x y : Reg) (nn : Byte) (s : State)

theorem exec_jp_eq : exec (.jp nnn) s = .next (s.setPc (zextAddr nnn)) := rfl

theorem exec_jpV0_eq : exec (.jpV0 nnn) s = .next (s.setPc (offsetTarget nnn (s.reg 0))) := rfl

theorem exec_seImm_eq : exec (.seImm x nn) s = skipIf (s.reg x == nn) s := rfl

theorem exec_sneImm_eq : exec (.sneImm x nn) s = skipIf (s.reg x != nn) s := rfl

theorem exec_seReg_eq : exec (.seReg x y) s = skipIf (s.reg x == s.reg y) s := rfl

theorem exec_sneReg_eq : exec (.sneReg x y) s = skipIf (s.reg x != s.reg y) s := rfl

end answers

section stack
variable {s : State}

theorem exec_call_of_lt (nnn : Addr) (h : s.stack.length < 16) :
    exec (.call nnn) s = .next ((s.setStack (s.stack ++ [s.pc + 2#16])).setPc (zextAddr nnn)) := by
  simp only [exec, execCall, pushStack_of_lt _ h, State.advance_pc]

theorem exec_call_of_full (nnn : Addr) (h : 16 ≤ s.stack.length) :
    exec (.call nnn) s = .next (s.setFault (some (.stackOverflowError s.pc))) := by
  simp only [exec, execCall, pushStack_of_full _ h, takeFault_eq]

theorem exec_ret_of_append {st : List Word} {v : Word} (h : s.stack = st ++ [v]) :
    exec .ret s = .next ((s.setStack st).setPc v) := by
  simp only [exec, execRet, h, popStack_append]

theorem exec_ret_of_nil (h : s.stack = []) :
    exec .ret s = .next (s.setFault (some (.stackUnderflowError s.pc))) := by
  simp only [exec, execRet, h, popStack_nil, takeFault_eq]

end stack

end Sys2Proof.Machine

namespace Sys2Proof.Safety

open Sys2Proof.Machine

/-- A call or a return changes the stack and the pc only. -/
theorem changesOnly_setStack_setPc (s : State) (st : List Word) (w : Word) :
    ChangesOnly [] [.stack] s ((s.setStack st).setPc w) := by simp [ChangesOnly]

/-- An instruction that answers the shared skip skips exactly when the proposition its Boolean decides holds (R148). -/
theorem skipsWhen_of_skipIf {i : Instr} {s : State} {b : Bool} {c : Prop} (h : exec i s = skipIf b s)
    (hb : b = true ↔ c) : SkipsWhen c i s := by
  rw [skipIf_eq] at h
  cases b with
  | true =>
    have hc : c := hb.mp rfl
    exact ⟨s.advance.advance, h, fun _ => advance_advance_pc s, (absurd hc ·),
      changesOnly_trans (changesOnly_advance s) (changesOnly_advance _)⟩
  | false =>
    have hc : ¬ c := mt hb.mpr Bool.false_ne_true
    exact ⟨s.advance, h, (absurd · hc), fun _ => State.advance_pc s, changesOnly_advance s⟩

end Sys2Proof.Safety
end

section
/-! The statements of the control-flow family (43_control_flow.md): the decoding is `decode_encode`, the answer one of
the equations above, and the frame that of a jump, of a stack move, or of the shared skip. -/

namespace Sys2Proof.Safety

open Sys2Proof.Machine

/-- Settles O31: the jump writes the zero-extended NNN to the pc. -/
theorem jpSetsThePc : Obligations.JpSetsThePc := by
  unfold Obligations.JpSetsThePc
  intro nnn s
  have hdec := decode_encode (i := .jp nnn) rfl
  exact ⟨_, hdec, exec_jp_eq nnn s, zextAddr_toNat nnn, changesOnly_setPc s _⟩

/-- Settles O32: the push succeeds below 16 entries and fails from 16 on. -/
theorem callPushesTheReturnAddressOrOverflows : Obligations.CallPushesTheReturnAddressOrOverflows := by
  unfold Obligations.CallPushesTheReturnAddressOrOverflows
  intro nnn s
  refine ⟨decode_encode (i := .call nnn) rfl, fun hlt => ?_, exec_call_of_full nnn⟩
  exact ⟨_, exec_call_of_lt nnn hlt, rfl, zextAddr_toNat nnn, changesOnly_setStack_setPc s _ _⟩

/-- Settles O33: the pop takes the last entry and fails on the empty stack. -/
theorem retPopsThePcOrUnderflows : Obligations.RetPopsThePcOrUnderflows := by
  unfold Obligations.RetPopsThePcOrUnderflows
  intro s
  refine ⟨decode_encode (i := .ret) rfl, fun st v hst => ?_, exec_ret_of_nil⟩
  exact ⟨_, exec_ret_of_append hst, rfl, rfl, changesOnly_setStack_setPc s st v⟩

/-- Settles O34: the target's value is `offsetTarget_toNat`, a sum that 16 bits hold. -/
theorem jpV0AddsV0 : Obligations.JpV0AddsV0 := by
  unfold Obligations.JpV0AddsV0
  intro nnn s
  have hdec := decode_encode (i := .jpV0 nnn) rfl
  exact ⟨_, hdec, exec_jpV0_eq nnn s, offsetTarget_toNat nnn (s.reg 0), changesOnly_setPc s _⟩

/-- Settles O35: each of the four answers the shared skip, whose Boolean decides its condition. -/
theorem registerSkipsFollowTheirCondition : Obligations.RegisterSkipsFollowTheirCondition := by
  unfold Obligations.RegisterSkipsFollowTheirCondition
  intro x y nn s
  exact ⟨⟨decode_encode (i := .seImm x nn) rfl, skipsWhen_of_skipIf (exec_seImm_eq x nn s) beq_iff_eq⟩,
    ⟨decode_encode (i := .sneImm x nn) rfl, skipsWhen_of_skipIf (exec_sneImm_eq x nn s) bne_iff_ne⟩,
    ⟨decode_encode (i := .seReg x y) rfl, skipsWhen_of_skipIf (exec_seReg_eq x y s) beq_iff_eq⟩,
    ⟨decode_encode (i := .sneReg x y) rfl, skipsWhen_of_skipIf (exec_sneReg_eq x y s) bne_iff_ne⟩⟩

end Sys2Proof.Safety
end

section
/-! What the index instructions answer: each writes I after the advance, and LD F does so only where its digit has a
glyph (44_memory_index.md). -/

namespace Sys2Proof.Machine

theorem exec_ldI_eq (nnn : Addr) (s : State) : exec (.ldI nnn) s = .next (s.advance.setI (zextAddr nnn)) := rfl

theorem exec_addI_eq (x : Reg) (s : State) :
    exec (.addI x) s = .next (s.advance.setI (trunc16 (s.I.toNat + (s.reg x).toNat))) := rfl

theorem exec_ldF_of_glyph {x : Reg} {s : State} {a : Word} (h : glyphAddr (s.reg x) = some a) :
    exec (.ldF x) s = .next (s.advance.setI a) := by
  simp only [exec, execLdF, h]

theorem exec_ldF_of_no_glyph {x : Reg} {s : State} (h : glyphAddr (s.reg x) = none) :
    exec (.ldF x) s = .refused (.fontDigitOutOfRange (s.reg x)) := by
  simp only [exec, execLdF, h]

end Sys2Proof.Machine

namespace Sys2Proof.Safety

open Sys2Proof.Machine

/-- A write to I after the advance changes I and the pc only. -/
theorem changesOnly_setI (s : State) (w : Word) : ChangesOnly [] [.I] s (s.advance.setI w) := by simp [ChangesOnly]

end Sys2Proof.Safety
end

section
/-! The statements of the index family (44_memory_index.md): the decoding is `decode_encode`, the answer one of the
equations above, and the frame that of a write to I. -/

namespace Sys2Proof.Safety

open Sys2Proof.Machine

/-- Settles O36: the word written to I is the zero-extended NNN. -/
theorem ldILoadsTheAddress : Obligations.LdILoadsTheAddress := by
  unfold Obligations.LdILoadsTheAddress
  intro nnn s
  have hdec := decode_encode (i := .ldI nnn) rfl
  exact ⟨_, hdec, exec_ldI_eq nnn s, State.advance_pc s, zextAddr_toNat nnn, changesOnly_setI s _⟩

/-- Settles O37: the word written to I is the sum cut to 16 bits; VF is in the frame. -/
theorem addIAddsModulo65536WithoutFlag : Obligations.AddIAddsModulo65536WithoutFlag := by
  unfold Obligations.AddIAddsModulo65536WithoutFlag
  intro x s
  have hdec := decode_encode (i := .addI x) rfl
  exact ⟨_, hdec, exec_addI_eq x s, State.advance_pc s, trunc16_toNat _, changesOnly_setI s _⟩

/-- Settles O38: a digit up to 15 has a glyph, whose address FONT_BASE's bound keeps within 16 bits
(`glyphAddr_of_le`); a larger value has none. -/
theorem ldFPointsIAtTheGlyph : Obligations.LdFPointsIAtTheGlyph := by
  unfold Obligations.LdFPointsIAtTheGlyph
  intro x s
  refine ⟨decode_encode (i := .ldF x) rfl, fun hle => ?_, fun hgt => exec_ldF_of_no_glyph (glyphAddr_of_gt hgt)⟩
  obtain ⟨a, hglyph, haddr⟩ := glyphAddr_of_le hle
  exact ⟨_, exec_ldF_of_glyph hglyph, State.advance_pc s, haddr, changesOnly_setI s a⟩

end Sys2Proof.Safety
end

section
/-! What the display instructions answer, and what a draw of a sprite in memory does to pixels, VF and the dirty flag,
in terms of the pixels the sprite covers (45_display.md). -/

namespace Sys2Proof.Machine

theorem exec_cls_eq (s : State) : exec .cls s = .next ((s.advance.setFb clearDisplay).setDirty true) := rfl

/-- The `n` sprite rows in memory at I (R172). -/
def spriteRows (s : State) (n : Nat) : List Byte := (List.range n).map (fun r => Memory.read s.mem (s.base + r))

@[simp] theorem spriteRows_length (s : State) (n : Nat) : (spriteRows s n).length = n := by simp [spriteRows]

/-- The most rows a draw has are fewer than the display's. -/
theorem spriteRows_length_le (s : State) {n : Nat} (hn : n < 16) : (spriteRows s n).length ≤ 32 := by
  rw [spriteRows_length]
  omega

/-- The state after drawing the `n` rows at I at the coordinates in Vx and Vy: what DRW answers where those rows lie in
memory (`exec_drw_of_fits`). -/
def drawSprite (x y : Reg) (n : Nat) (s : State) : State :=
  drawRows (s.reg x).toNat (s.reg y).toNat (spriteRows s n) s.advance

theorem exec_drw_of_fits (x y : Reg) {n : Nat} {s : State} (h : n = 0 ∨ s.I.toNat + n ≤ 4096) :
    exec (.drw x y n) s = .next (drawSprite x y n s) := by
  have hrows : readRange s.mem s.base n = .ok (spriteRows s n) := readRange_ok s.mem h
  simp only [exec, execDrw, hrows, drawSprite]

theorem exec_drw_of_out_of_range (x y : Reg) {n : Nat} {s : State} (h0 : n ≠ 0) (h : 4096 < s.I.toNat + n) :
    exec (.drw x y n) s = .next (s.setFault (some (.memoryBoundsError (max s.I.toNat 4096)))) := by
  have hrows : readRange s.mem s.base n = .error (.memoryBoundsError (max s.I.toNat 4096)) := readRange_error s.mem h0 h
  simp only [exec, execDrw, hrows, takeFault_eq]

@[simp] theorem drawSprite_pc (x y : Reg) (n : Nat) (s : State) : (drawSprite x y n s).pc = s.pc + 2#16 := rfl
@[simp] theorem drawSprite_I (x y : Reg) (n : Nat) (s : State) : (drawSprite x y n s).I = s.I := rfl
@[simp] theorem drawSprite_mem (x y : Reg) (n : Nat) (s : State) : (drawSprite x y n s).mem = s.mem := rfl

/-! A flag byte is 1 or 0 as its Boolean is -/

theorem flagByte_eq_one_iff {b : Bool} : flagByte b = 1#8 ↔ b = true := by cases b <;> decide

theorem flagByte_eq_zero_iff {b : Bool} : flagByte b = 0#8 ↔ ¬ b = true := by cases b <;> decide

/-! A flipped bit -/

theorem xor_ne_self_iff {a b : Bool} : (a ^^ b) ≠ a ↔ b = true := by cases a <;> simp

/-- Two flips under the same condition undo each other. -/
theorem eq_of_ne_iff_ne {a b c : Bool} (h : a ≠ b ↔ b ≠ c) : a = c := by decide +revert

/-! A draw of at most 32 rows -/

section drawRows
variable {x0 y0 : Nat} {rows : List Byte} {s : State}

theorem pixel_drawRows (hlen : rows.length ≤ 32) (px : Fin 64) (py : Fin 32) :
    pixel (drawRows x0 y0 rows s).fb px py = (pixel s.fb px py ^^ decide ((px, py) ∈ spritePixels x0 y0 rows)) :=
  (flipAll_spec s.fb false _ (spritePixels_nodup x0 y0 rows hlen)).1 px py

/-- VF is the flag of a collision with a pixel set before the draw (R172). -/
theorem drawRows_reg_VF (hlen : rows.length ≤ 32) :
    ∃ c, (drawRows x0 y0 rows s).reg 15 = flagByte c ∧
      (c = true ↔ ∃ p ∈ spritePixels x0 y0 rows, pixel s.fb p.1 p.2 = true) := by
  have hcoll := (flipAll_spec s.fb false _ (spritePixels_nodup x0 y0 rows hlen)).2
  exact ⟨_, State.reg_setReg_same _ VF _, by simpa only [Bool.false_eq_true, false_or] using hcoll⟩

theorem drawRows_dirty :
    (drawRows x0 y0 rows s).dirty = true ↔
      s.dirty = true ∨ (∃ p, p ∈ spritePixels x0 y0 rows) ∨ (rows ≠ [] ∧ Config.dirtyAlwaysOnDraw = true) := by
  have haims : spritePixels x0 y0 rows ≠ [] ↔ ∃ p, p ∈ spritePixels x0 y0 rows :=
    List.isEmpty_eq_false_iff.symm.trans List.isEmpty_eq_false_iff_exists_mem
  rw [← haims]
  simp [drawRows, drawSetsDirty]

end drawRows

end Sys2Proof.Machine

namespace Sys2Proof.Safety

open Sys2Proof.Machine

/-- A clear changes the buffer, the dirty flag and the pc only. -/
theorem changesOnly_cls (s : State) :
    ChangesOnly [] [.fb, .dirty] s ((s.advance.setFb clearDisplay).setDirty true) := by simp [ChangesOnly]

/-- The pixels the rows at I aim at are those the sprite covers. -/
theorem mem_spritePixels_spriteRows {s : State} {x0 y0 n : Nat} {p : Fin 64 × Fin 32} :
    p ∈ spritePixels x0 y0 (spriteRows s n) ↔ SpriteCovers s x0 y0 n p.1 p.2 := by
  simp only [mem_spritePixels, SpriteCovers, spriteRows, List.length_map, List.length_range, List.getElem_map,
    List.getElem_range, exists_prop, State.base, exists_and_left]

/-- Which pixels a sprite covers depends on memory and I only. -/
theorem spriteCovers_congr {s t : State} (hmem : t.mem = s.mem) (hI : t.I = s.I) {x0 y0 n : Nat} {px : Fin 64}
    {py : Fin 32} : SpriteCovers t x0 y0 n px py ↔ SpriteCovers s x0 y0 n px py := by
  simp only [SpriteCovers, hmem, hI]

section drawSprite
variable {x y : Reg} {n : Nat} {s : State}

theorem drawSprite_pixel_ne_iff (hn : n < 16) (px : Fin 64) (py : Fin 32) :
    pixel (drawSprite x y n s).fb px py ≠ pixel s.fb px py ↔
      SpriteCovers s (s.reg x).toNat (s.reg y).toNat n px py := by
  rw [drawSprite, pixel_drawRows (spriteRows_length_le s hn), State.advance_fb, xor_ne_self_iff, decide_eq_true_eq,
    mem_spritePixels_spriteRows]

/-- VF is the flag of a covered pixel that was set before the draw. -/
theorem drawSprite_reg_VF (hn : n < 16) :
    ∃ c, (drawSprite x y n s).reg 15 = flagByte c ∧
      (c = true ↔ ∃ px py, SpriteCovers s (s.reg x).toNat (s.reg y).toNat n px py ∧ pixel s.fb px py = true) := by
  obtain ⟨c, hVF, hc⟩ := drawRows_reg_VF (x0 := (s.reg x).toNat) (y0 := (s.reg y).toNat) (s := s.advance)
    (spriteRows_length_le s hn)
  refine ⟨c, hVF, hc.trans ?_⟩
  simp only [mem_spritePixels_spriteRows, Prod.exists, State.advance_fb]

/-- The pixels a draw takes from 1 to 0 are the covered ones that were set. -/
theorem drawSprite_clears_iff (hn : n < 16) :
    (∃ px py, pixel s.fb px py = true ∧ pixel (drawSprite x y n s).fb px py = false) ↔
      ∃ px py, SpriteCovers s (s.reg x).toNat (s.reg y).toNat n px py ∧ pixel s.fb px py = true := by
  refine exists_congr fun px => exists_congr fun py => ?_
  rw [← drawSprite_pixel_ne_iff hn, and_comm]
  exact and_congr_left fun hset => by rw [hset, ne_eq, Bool.not_eq_true]

theorem drawSprite_dirty_iff (hn : n < 16) :
    (drawSprite x y n s).dirty = true ↔
      s.dirty = true ∨ (∃ px py, pixel (drawSprite x y n s).fb px py ≠ pixel s.fb px py) ∨
        (n ≠ 0 ∧ Config.dirtyAlwaysOnDraw = true) := by
  have hrows : spriteRows s n ≠ [] ↔ n ≠ 0 := by rw [← List.length_pos_iff, spriteRows_length, Nat.pos_iff_ne_zero]
  simp only [drawSprite_pixel_ne_iff hn]
  rw [drawSprite, drawRows_dirty, hrows, State.advance_dirty]
  simp only [mem_spritePixels_spriteRows, Prod.exists]

/-- XOR is its own inverse: a second draw of the same sprite at the same coordinates flips the same pixels back
(R174). -/
theorem drawSprite_twice_fb (hn : n < 16) (hx : (drawSprite x y n s).reg x = s.reg x)
    (hy : (drawSprite x y n s).reg y = s.reg y) : (drawSprite x y n (drawSprite x y n s)).fb = s.fb := by
  refine display_ext fun px py => ?_
  have hfirst := drawSprite_pixel_ne_iff (x := x) (y := y) (s := s) hn px py
  have hsecond := drawSprite_pixel_ne_iff (x := x) (y := y) (s := drawSprite x y n s) hn px py
  rw [hx, hy, spriteCovers_congr (drawSprite_mem x y n s) (drawSprite_I x y n s), ← hfirst] at hsecond
  exact eq_of_ne_iff_ne hsecond

end drawSprite

/-- A sprite at column 63 covers column 0 where bit 6 of its first row is set: the column wraps (R174). -/
theorem spriteCovers_column_zero {s : State} {y0 n : Nat} (hn : n ≠ 0)
    (hbit : (Memory.read s.mem s.I.toNat).getLsbD 6 = true) {py : Fin 32} (hpy : py.val = y0 % 32) :
    SpriteCovers s 63 y0 n 0 py :=
  ⟨0, 1, Nat.pos_of_ne_zero hn, by decide, hbit, rfl, hpy⟩

end Sys2Proof.Safety
end

section
/-! The statements of the display family (45_display.md): the decoding is `decode_encode`, the answer one of the
equations above, and the pixels, VF and the dirty flag those of `drawSprite`. -/

namespace Sys2Proof.Safety

open Sys2Proof.Machine

/-- Settles O40: where the rows lie in memory the answer is `drawSprite`, whose pixels, VF and dirty flag follow the
pixels the sprite covers; elsewhere the read of the rows raises. -/
theorem drwFlipsTheCoveredPixels : Obligations.DrwFlipsTheCoveredPixels := by
  unfold Obligations.DrwFlipsTheCoveredPixels
  intro x y n s hn
  have hdec := decode_encode ((wellFormed_drw x y n).mpr hn)
  refine ⟨hdec, fun hfits => ?_, exec_drw_of_out_of_range x y⟩
  obtain ⟨c, hVF, hc⟩ := drawSprite_reg_VF (x := x) (y := y) (s := s) hn
  rw [← drawSprite_clears_iff hn] at hc
  exact ⟨drawSprite x y n s, exec_drw_of_fits x y hfits, drawSprite_pc x y n s, drawSprite_pixel_ne_iff hn,
    fun hcoll => hVF.trans (flagByte_eq_one_iff.mpr (hc.mpr hcoll)),
    fun hnone => hVF.trans (flagByte_eq_zero_iff.mpr (mt hc.mp hnone)),
    drawSprite_dirty_iff hn, changesOnly_drawRows _ _ _ s⟩

/-- Settles O41: both draws answer `drawSprite`, at the same coordinates and of the same rows; the wrapped pixel is one the
sprite covers. -/
theorem drawingTwiceRestoresTheBuffer : Obligations.DrawingTwiceRestoresTheBuffer := by
  unfold Obligations.DrawingTwiceRestoresTheBuffer
  intro x y n s t hn hfits hexec hx hy
  cases (exec_drw_of_fits x y hfits).symm.trans hexec
  refine ⟨⟨_, exec_drw_of_fits x y hfits, drawSprite_twice_fb hn hx hy, ?_⟩, fun hcol hn0 hbit py hpy => ?_⟩
  · obtain ⟨c, hVF, hc⟩ := drawSprite_reg_VF (x := x) (y := y) (s := drawSprite x y n s) hn
    rw [hVF, flagByte_eq_one_iff, hc, hx, hy]
    simp only [spriteCovers_congr (drawSprite_mem x y n s) (drawSprite_I x y n s)]
  · rw [drawSprite_pixel_ne_iff hn, hcol]
    exact spriteCovers_column_zero hn0 hbit hpy

/-- Settles O39: the answer holds the clear buffer and the flag set. -/
theorem clsClearsAndMarksDirty : Obligations.ClsClearsAndMarksDirty := by
  unfold Obligations.ClsClearsAndMarksDirty
  intro s
  have hdec := decode_encode (i := .cls) rfl
  exact ⟨_, hdec, exec_cls_eq s, rfl, pixel_clearDisplay, rfl, changesOnly_cls s⟩

end Sys2Proof.Safety
end

section
/-! What the input instructions and the waiting poll answer: the shared skip where Vx is a key index, a refusal where
it is not, the entered wait, and the two polls (46_input.md). -/

namespace Sys2Proof.Machine

theorem exec_ldVxK_eq (x : Reg) (s : State) : exec (.ldVxK x) s = .next (s.advance.setWait (some x)) := rfl

section keyIndex
variable {x : Reg} {s : State}

theorem exec_skp_of_key {k : Fin 16} (h : (s.reg x).toNat = k.val) : exec (.skp x) s = skipIf (s.key.get k) s := by
  simp only [exec, execSkp, keyIndex_of_eq h, isKeyPressed]

theorem exec_sknp_of_key {k : Fin 16} (h : (s.reg x).toNat = k.val) :
    exec (.sknp x) s = skipIf (!s.key.get k) s := by
  simp only [exec, execSknp, keyIndex_of_eq h, isKeyNotPressed]

theorem exec_skp_of_gt (h : 15 < (s.reg x).toNat) : exec (.skp x) s = .refused (.keyIndexOutOfRange (s.reg x)) := by
  simp only [exec, execSkp, keyIndex_of_gt h]

theorem exec_sknp_of_gt (h : 15 < (s.reg x).toNat) :
    exec (.sknp x) s = .refused (.keyIndexOutOfRange (s.reg x)) := by
  simp only [exec, execSknp, keyIndex_of_gt h]

end keyIndex

section poll
variable {s : State} (r : Reg)

theorem waitPoll_of_no_key (h : ∀ k : Fin 16, s.key.get k = false) : waitPoll r s = s := by
  simp only [waitPoll, firstPressedKey_none h]

theorem waitPoll_of_lowest_key {k : Fin 16} (hk : s.key.get k = true)
    (hlow : ∀ j : Fin 16, j < k → s.key.get j = false) :
    waitPoll r s = (s.setReg r (keyByte k)).setWait none := by
  simp only [waitPoll, firstPressedKey_some hk hlow]

end poll

end Sys2Proof.Machine

namespace Sys2Proof.Safety

open Sys2Proof.Machine

/-- Entering the wait after the advance changes the wait mode and the pc only. -/
theorem changesOnly_setWait (s : State) (w : Option Reg) : ChangesOnly [] [.wait] s (s.advance.setWait w) := by
  simp [ChangesOnly]

end Sys2Proof.Safety
end

section
/-! The statements of the input family (46_input.md): the waiting step is one poll, whose frame is
`waitPoll_changesOnly`; the decoding is `decode_encode` and the answer one of the equations above. -/

namespace Sys2Proof.Safety

open Sys2Proof.Machine

/-- Settles O10: the step is one poll, which writes the lowest pressed key where there is one. -/
theorem waitingStepPollsTheKeys : Obligations.WaitingStepPollsTheKeys := by
  unfold Obligations.WaitingStepPollsTheKeys
  intro s r hlive hwait
  have hstep : step s = .next (waitPoll r s) := step_of_wait hlive hwait
  refine ⟨fun hnone => by rw [hstep, waitPoll_of_no_key r hnone], fun k hk hlow => ?_⟩
  have hpoll := waitPoll_of_lowest_key r hk hlow
  obtain ⟨hpc, hframe⟩ := waitPoll_changesOnly r s
  exact ⟨waitPoll r s, hstep, by simp [hpoll], by simp [hpoll], hpc, hframe⟩

/-- Settles O42: with a key index in Vx both answer the shared skip, whose Boolean is the key's state or its negation;
with a larger value both are refused. -/
theorem keySkipsFollowTheKeyState : Obligations.KeySkipsFollowTheKeyState := by
  unfold Obligations.KeySkipsFollowTheKeyState
  intro x s
  refine ⟨decode_encode (i := .skp x) rfl, decode_encode (i := .sknp x) rfl, fun k hk => ⟨?_, ?_⟩,
    fun hgt => ⟨exec_skp_of_gt hgt, exec_sknp_of_gt hgt⟩⟩
  · exact skipsWhen_of_skipIf (exec_skp_of_key hk) Iff.rfl
  · exact skipsWhen_of_skipIf (exec_sknp_of_key hk) (iff_of_eq (Bool.not_eq_true' _))

/-- Settles O43: the answer depends on neither the keys nor Vx; both are in the frame. -/
theorem ldVxKEntersTheWait : Obligations.LdVxKEntersTheWait := by
  unfold Obligations.LdVxKEntersTheWait
  intro x s
  have hdec := decode_encode (i := .ldVxK x) rfl
  exact ⟨_, hdec, exec_ldVxK_eq x s, State.advance_pc s, rfl, changesOnly_setWait s _⟩

end Sys2Proof.Safety
end

section
/-! What the timer instructions answer, a move of one byte after the advance, and what a tick does to the two timers
(47_timer.md, 60_exceptions.md R222). -/

namespace Sys2Proof.Machine

section answers
variable (x : Reg) (s : State)

theorem exec_ldVxDt_eq : exec (.ldVxDt x) s = writeReg x s.DT s := rfl

theorem exec_ldDtVx_eq : exec (.ldDtVx x) s = .next (s.advance.setDT (s.reg x)) := rfl

theorem exec_ldStVx_eq : exec (.ldStVx x) s = .next (s.advance.setST (s.reg x)) := rfl

end answers

/-- A tick takes a timer down by one, in the natural numbers: at 0 it stays. -/
theorem tickTimer_toNat (t : Byte) : (tickTimer t).toNat = t.toNat - 1 := by
  have := t.isLt
  unfold tickTimer
  split
  · rw [trunc8_toNat]
    omega
  · omega

theorem tickTimers_of_live {s : State} (h : s.fault = none) :
    tickTimers s = (s.setDT (tickTimer s.DT)).setST (tickTimer s.ST) := by
  simp only [tickTimers, h]

theorem tickTimers_of_fault {s : State} {e : Fault} (h : s.fault = some e) : tickTimers s = s := by
  simp only [tickTimers, h]

end Sys2Proof.Machine

namespace Sys2Proof.Safety

open Sys2Proof.Machine

theorem changesOnly_setDT (s : State) (b : Byte) : ChangesOnly [] [.DT] s (s.advance.setDT b) := by simp [ChangesOnly]

theorem changesOnly_setST (s : State) (b : Byte) : ChangesOnly [] [.ST] s (s.advance.setST b) := by simp [ChangesOnly]

/-- A tick leaves the pc and everything but the two timers alone. -/
theorem changesOnly_tickTimers (s : State) :
    (tickTimers s).pc = s.pc ∧ ChangesOnly [] [.DT, .ST] s (tickTimers s) := by
  rcases tickTimers_cases s with heq | ⟨d, b, heq⟩ <;> rw [heq]
  · exact ⟨rfl, changesOnly_refl _ _ s⟩
  · exact ⟨rfl, by simp [ChangesOnly]⟩

/-- So do any number of ticks. -/
theorem changesOnly_iterate_tickTimers (n : Nat) (s : State) :
    (tickTimers^[n] s).pc = s.pc ∧ ChangesOnly [] [.DT, .ST] s (tickTimers^[n] s) := by
  induction n with
  | zero => exact ⟨rfl, changesOnly_refl _ _ s⟩
  | succ n ih =>
    rw [Function.iterate_succ_apply']
    obtain ⟨hpc, hframe⟩ := ih
    obtain ⟨hpc', hframe'⟩ := changesOnly_tickTimers (tickTimers^[n] s)
    exact ⟨hpc'.trans hpc, changesOnly_trans hframe hframe'⟩

/-- On a live session `n` ticks take each timer down by `n`, in the natural numbers. -/
theorem iterate_tickTimers_toNat {s : State} (hlive : s.fault = none) (n : Nat) :
    (tickTimers^[n] s).DT.toNat = s.DT.toNat - n ∧ (tickTimers^[n] s).ST.toNat = s.ST.toNat - n := by
  induction n with
  | zero => exact ⟨rfl, rfl⟩
  | succ n ih =>
    obtain ⟨-, -, -, -, -, -, -, -, -, -, -, hfault, -⟩ := changesOnly_iterate_tickTimers n s
    rw [Function.iterate_succ_apply', tickTimers_of_live ((hfault (by simp)).trans hlive)]
    simp only [State.setST_DT, State.setDT_DT, State.setST_ST, tickTimer_toNat, ih, Nat.sub_sub, and_self]

end Sys2Proof.Safety
end

section
/-! What the BCD store and the register load answer, and the bounds error of the three instructions of the family, with
nothing stored or loaded (48_bcd_regdump.md). -/

namespace Sys2Proof.Machine

/-- A store from I that leaves the address space raises with its lowest address outside (20_memory.md R64). -/
theorem storeAtI_of_out_of_range {bs : List Byte} {s : State} (h0 : bs ≠ []) (h : 4096 < s.base + bs.length) :
    storeAtI bs s = .next (s.setFault (some (.memoryBoundsError (max s.I.toNat 4096)))) := by
  have herr : writeRange s.mem s.base bs = .error (.memoryBoundsError (max s.I.toNat 4096)) :=
    writeRange_error s.mem bs h0 h
  simp only [storeAtI, herr, takeFault_eq]

theorem storeAtI_fault_cases {bs : List Byte} {s t : State} (h0 : bs ≠ []) (h : storeAtI bs s = .next t) :
    t.fault = s.fault ∨ t = s.setFault (some (.memoryBoundsError (max s.I.toNat 4096))) := by
  rcases storeAtI_cases s h0 with ⟨-, m, -, heq⟩ | ⟨-, heq⟩ <;> cases heq.symm.trans h
  · exact .inl rfl
  · exact .inr rfl

@[simp] theorem bcdDigits_length (b : Byte) : (bcdDigits b).length = 3 := rfl

section bcdDump
variable {x : Reg} {s : State}

/-- A BCD store that fits puts the three digits at I, I + 1 and I + 2, and changes no other byte. -/
theorem exec_ldB_of_fits (hm : Memory.wf s.mem = true) (hfit : s.I.toNat + 2 < 4096) :
    ∃ m, exec (.ldB x) s = .next (s.advance.setMem m) ∧
      (Memory.read m s.I.toNat).toNat = (s.reg x).toNat / 100 ∧
      (Memory.read m (s.I.toNat + 1)).toNat = (s.reg x).toNat / 10 % 10 ∧
      (Memory.read m (s.I.toNat + 2)).toNat = (s.reg x).toNat % 10 ∧
      (∀ a, ¬ (s.I.toNat ≤ a ∧ a < s.I.toNat + 3) → Memory.read m a = Memory.read s.mem a) := by
  obtain ⟨m, hexec, heq, hne⟩ := storeAtI_of_fits (bs := bcdDigits (s.reg x)) hm hfit
  have h0 : Memory.read m s.I.toNat = trunc8 ((s.reg x).toNat / 100) := heq 0 (by simp)
  have h1 : Memory.read m (s.I.toNat + 1) = trunc8 ((s.reg x).toNat / 10 % 10) := heq 1 (by simp)
  have h2 : Memory.read m (s.I.toNat + 2) = trunc8 ((s.reg x).toNat % 10) := heq 2 (by simp)
  have hlt := (s.reg x).isLt
  refine ⟨m, hexec, ?_, ?_, ?_, hne⟩
  · rw [h0, trunc8_toNat]
    omega
  · rw [h1, trunc8_toNat]
    omega
  · rw [h2, trunc8_toNat]
    omega

theorem exec_ldB_of_out_of_range (h : 4096 ≤ s.I.toNat + 2) :
    exec (.ldB x) s = .next (s.setFault (some (.memoryBoundsError (max s.I.toNat 4096)))) :=
  storeAtI_of_out_of_range (bcdDigits_ne_nil _) (Nat.lt_succ_of_le h)

theorem exec_dump_of_out_of_range (h : 4096 ≤ s.I.toNat + x.val) :
    exec (.dump x) s = .next (s.setFault (some (.memoryBoundsError (max s.I.toNat 4096)))) :=
  storeAtI_of_out_of_range (regsUpTo_ne_nil s x) (by rw [regsUpTo_length]; exact Nat.lt_succ_of_le h)

/-- A register load that fits loads x + 1 bytes, so that V[k] is the byte at I + k for every k up to X. -/
theorem exec_load_of_fits (hfit : s.I.toNat + x.val < 4096) :
    ∃ bs, exec (.load x) s = .next (s.advance.setV (regsLoaded s.V bs)) ∧ bs.length = x.val + 1 ∧
      ∀ k : Reg, k ≤ x → (regsLoaded s.V bs).get k = Memory.read s.mem (s.I.toNat + k.val) := by
  have hread := readRange_ok s.mem (base := s.base) (n := x.val + 1) (.inr hfit)
  have hexec : exec (.load x) s = .next (s.advance.setV (regsLoaded s.V
      ((List.range (x.val + 1)).map fun k => Memory.read s.mem (s.base + k)))) := by
    simp only [exec, execLoad, hread]
  refine ⟨_, hexec, by simp, fun k hk => ?_⟩
  have hk' : k.val < x.val + 1 := Nat.lt_succ_of_le hk
  rw [regsLoaded_get, List.getD_eq_getElem _ _ (by simpa using hk')]
  simp [State.base]

theorem exec_load_of_out_of_range (h : 4096 ≤ s.I.toNat + x.val) :
    exec (.load x) s = .next (s.setFault (some (.memoryBoundsError (max s.I.toNat 4096)))) := by
  have herr : readRange s.mem s.base (x.val + 1) = .error (.memoryBoundsError (max s.I.toNat 4096)) :=
    readRange_error s.mem (Nat.succ_ne_zero _) (Nat.lt_succ_of_le h)
  simp only [exec, execLoad, herr, takeFault_eq]

end bcdDump

end Sys2Proof.Machine

namespace Sys2Proof.Safety

open Sys2Proof.Machine

/-- A store after the advance changes Memory and the pc only. -/
theorem changesOnly_setMem (s : State) (m : Memory) : ChangesOnly [] [.mem] s (s.advance.setMem m) := by
  simp [ChangesOnly]

end Sys2Proof.Safety
end

section
/-! Which instruction records which error (60_exceptions.md R217), what a dead session leaves alone (R214), and what the
collaborators' transactions write (R224 to R227). -/

namespace Sys2Proof.Machine

/-- `e` is the error of the one check that instruction `i` has at `s` (R213, R215, R217). -/
def ErrorOfCheck (i : Instr) (s : State) (e : Fault) : Prop :=
  ((∃ nnn, i = .call nnn) ∧ e = .stackOverflowError s.pc) ∨
  (i = .ret ∧ e = .stackUnderflowError s.pc) ∨
  (((∃ x y n, i = .drw x y n) ∨ (∃ x, i = .ldB x) ∨ (∃ x, i = .dump x) ∨ (∃ x, i = .load x)) ∧
    e = .memoryBoundsError (max s.I.toNat 4096))

theorem skipIf_fault {c : Bool} {s t : State} (h : skipIf c s = .next t) : t.fault = s.fault := by
  rcases skipIf_next h with rfl | rfl <;> rfl

/-- An instruction that answers a next state leaves the fault status alone or records the error of its own check. -/
theorem exec_fault_cases {i : Instr} {s t : State} (h : exec i s = .next t) :
    t.fault = s.fault ∨ ∃ e, t = s.setFault (some e) ∧ ErrorOfCheck i s e := by
  cases i with
  | call nnn =>
    rcases Nat.lt_or_ge s.stack.length 16 with hlt | hfull
    · cases (exec_call_of_lt nnn hlt).symm.trans h
      exact .inl rfl
    · cases (exec_call_of_full nnn hfull).symm.trans h
      exact .inr ⟨_, rfl, by simp [ErrorOfCheck]⟩
  | ret =>
    rcases List.eq_nil_or_concat s.stack with hnil | ⟨st, v, hst⟩
    · cases (exec_ret_of_nil hnil).symm.trans h
      exact .inr ⟨_, rfl, by simp [ErrorOfCheck]⟩
    · cases (exec_ret_of_append (hst.trans List.concat_eq_append)).symm.trans h
      exact .inl rfl
  | drw x y n =>
    by_cases hfits : n = 0 ∨ s.I.toNat + n ≤ 4096
    · cases (exec_drw_of_fits x y hfits).symm.trans h
      exact .inl rfl
    · cases (exec_drw_of_out_of_range x y (s := s) (n := n) (by omega) (by omega)).symm.trans h
      exact .inr ⟨_, rfl, by simp [ErrorOfCheck]⟩
  | ldB x => exact (storeAtI_fault_cases (bcdDigits_ne_nil _) h).imp_right fun ht => ⟨_, ht, by simp [ErrorOfCheck]⟩
  | dump x => exact (storeAtI_fault_cases (regsUpTo_ne_nil s x) h).imp_right fun ht => ⟨_, ht, by simp [ErrorOfCheck]⟩
  | load x =>
    rcases Nat.lt_or_ge (s.I.toNat + x.val) 4096 with hfit | hout
    · obtain ⟨bs, hexec, -⟩ := exec_load_of_fits hfit
      cases hexec.symm.trans h
      exact .inl rfl
    · cases (exec_load_of_out_of_range hout).symm.trans h
      exact .inr ⟨_, rfl, by simp [ErrorOfCheck]⟩
  | seImm | sneImm | seReg | sneReg => exact .inl (skipIf_fault h)
  | skp | sknp =>
    simp only [exec, execSkp, execSknp] at h
    split at h
    · exact .inl (skipIf_fault h)
    · cases h
  | ldF =>
    simp only [exec, execLdF] at h
    split at h <;> cases h
    exact .inl rfl
  | _ =>
    cases h
    exact .inl rfl

/-- A live session's error is the one of the check of the instruction that recorded it. -/
theorem errorOfCheck_of_exec {i : Instr} {s t : State} {e : Fault} (hlive : s.fault = none)
    (h : exec i s = .next t) (ht : t.fault = some e) : ErrorOfCheck i s e := by
  rcases exec_fault_cases h with hsame | ⟨e', rfl, hcheck⟩
  · cases ht.symm.trans (hsame.trans hlive)
  · cases ht
    exact hcheck

/-! A dead session -/

theorem unlessDead_of_fault {s : State} {e : Fault} (h : s.fault = some e) (t : State) :
    unlessDead s t = .refused .deadSession := by
  simp only [unlessDead, h]

/-- On a dead session a transaction other than `init` that answers a next state answers the same state. -/
theorem transact_of_fault {tr : Transaction} {s t : State} {e : Fault} (hs : s.fault = some e)
    (htr : ∀ rom, tr ≠ .init rom) (h : transact tr s = .next t) : t = s := by
  cases tr with
  | step =>
    cases (Safety.step_of_fault hs).symm.trans h
    rfl
  | tickTimers =>
    cases h
    exact tickTimers_of_fault hs
  | setKeyStatus k pressed => cases (unlessDead_of_fault hs _).symm.trans h
  | consumeDirty => cases (unlessDead_of_fault hs _).symm.trans h
  | init rom => exact absurd rfl (htr rom)

/-! The collaborators -/

/-- A key after a key change, in one equation. -/
theorem setKeyStatus_key_get (s : State) (k j : Fin 16) (p : Bool) :
    (setKeyStatus k p s).key.get j = if j = k then p else s.key.get j := by
  simp only [setKeyStatus, State.setKeys_key, Vector.get_eq_getElem, Vector.getElem_set, Fin.ext_iff, eq_comm]

end Sys2Proof.Machine

namespace Sys2Proof.Safety

open Sys2Proof.Machine

theorem changesOnly_setKeyStatus (k : Fin 16) (p : Bool) (s : State) : ChangesOnly [] [.key] s (setKeyStatus k p s) := by
  simp [ChangesOnly, setKeyStatus]

theorem changesOnly_consumeDirty (s : State) : ChangesOnly [] [.dirty] s (consumeDirty s).2 := by
  simp [ChangesOnly, consumeDirty]

end Sys2Proof.Safety
end

section
/-! The statements of the timers, of the BCD and register dump, and of the exceptions and collaborators (47_timer.md,
48_bcd_regdump.md, 60_exceptions.md), each read off the lemmas above. -/

namespace Sys2Proof.Safety

open Sys2Proof.Machine

/-- Settles O12: `exec_fault_cases`, where each instruction is shown to record nothing or the error of its own check. -/
theorem eachInstructionRaisesOnlyItsOwnError : Obligations.EachInstructionRaisesOnlyItsOwnError := by
  unfold Obligations.EachInstructionRaisesOnlyItsOwnError
  intro i s t e hlive h ht
  exact errorOfCheck_of_exec hlive h ht

/-- Settles O51, by induction on the number of ticks; no tick clears or records an error, so that each is one of a live
session. -/
theorem ticksCountDownToZero : Obligations.TicksCountDownToZero := by
  unfold Obligations.TicksCountDownToZero
  refine fun s => ⟨fun hlive n => ?_, fun hdead => ?_⟩
  · obtain ⟨hDT, hST⟩ := iterate_tickTimers_toNat hlive n
    exact ⟨hDT, hST, changesOnly_iterate_tickTimers n s⟩
  · obtain ⟨e, he⟩ := Option.ne_none_iff_exists'.mp hdead
    exact tickTimers_of_fault he

/-- Settles O44: FX07 answers a register write, FX15 and FX18 a write to their timer. -/
theorem timerLoadsMoveOneByte : Obligations.TimerLoadsMoveOneByte := by
  unfold Obligations.TimerLoadsMoveOneByte
  intro x s
  exact ⟨⟨decode_encode (i := .ldVxDt x) rfl, completes_of_writeReg (exec_ldVxDt_eq x s)⟩,
    ⟨decode_encode (i := .ldDtVx x) rfl, _, exec_ldDtVx_eq x s, State.advance_pc s, rfl, changesOnly_setDT s _⟩,
    ⟨decode_encode (i := .ldStVx x) rfl, _, exec_ldStVx_eq x s, State.advance_pc s, rfl, changesOnly_setST s _⟩⟩

/-- Settles O45: the digits are stored at I upward where they fit, and the store raises where they do not. -/
theorem ldBStoresThreeDigits : Obligations.LdBStoresThreeDigits := by
  unfold Obligations.LdBStoresThreeDigits
  intro x s hm
  refine ⟨decode_encode (i := .ldB x) rfl, fun hfit => ?_, exec_ldB_of_out_of_range⟩
  obtain ⟨m, hexec, h0, h1, h2, hrest⟩ := exec_ldB_of_fits (x := x) hm hfit
  exact ⟨_, hexec, State.advance_pc s, h0, h1, h2, hrest, changesOnly_setMem s m⟩

/-- Settles O46: `exec_dump_of_fits`, with its range of addresses written half-open. -/
theorem dumpStoresV0ToVx : Obligations.DumpStoresV0ToVx := by
  unfold Obligations.DumpStoresV0ToVx
  intro x s hm
  refine ⟨decode_encode (i := .dump x) rfl, fun hfit => ?_, exec_dump_of_out_of_range⟩
  obtain ⟨m, hexec, hread, hrest⟩ := exec_dump_of_fits hm hfit
  exact ⟨_, hexec, State.advance_pc s, hread, fun a ha => hrest a (by omega), changesOnly_setMem s m⟩

/-- Settles O47: the loaded registers are `exec_load_of_fits`; the registers above VX are in the frame. -/
theorem loadFillsV0ToVx : Obligations.LoadFillsV0ToVx := by
  unfold Obligations.LoadFillsV0ToVx
  intro x s
  refine ⟨decode_encode (i := .load x) rfl, fun hfit => ?_, exec_load_of_out_of_range⟩
  obtain ⟨bs, hexec, hlen, hread⟩ := exec_load_of_fits hfit
  have hframe := changesOnly_regsLoaded s hlen
  exact ⟨_, hexec, State.advance_pc s, hread, fun k hk => hframe.1 k (by simpa using hk), hframe⟩

/-- Settles O9: on a dead session the only transaction that answers another state is `init`. -/
theorem deadSessionIsAbsorbing : Obligations.DeadSessionIsAbsorbing := by
  unfold Obligations.DeadSessionIsAbsorbing
  refine fun s e hs => ⟨step_of_fault hs, tickTimers_of_fault hs, fun tr t htr h => ?_⟩
  rw [transact_of_fault hs htr h, hs]

/-- Settles O52: a key change is one equation on the key slots, a dirty read one on the flag; the two reads are what the
state holds. -/
theorem collaboratorsTouchOnlyTheirField : Obligations.CollaboratorsTouchOnlyTheirField := by
  unfold Obligations.CollaboratorsTouchOnlyTheirField
  intro s k p
  refine ⟨⟨?_, fun j hj => ?_, rfl, changesOnly_setKeyStatus k p s⟩,
    ⟨rfl, rfl, rfl, changesOnly_consumeDirty s⟩, rfl, bne_iff_ne⟩
  · rw [setKeyStatus_key_get, if_pos rfl]
  · rw [setKeyStatus_key_get, if_neg hj]

end Sys2Proof.Safety
end
